-- ==== Sys2Proof/Word.lean ====
section
/-! DEFINITION. The word types of the block: a byte, the packed 32-bit word, a base-85 digit value, the 9 bits of a token
(00_scope R6, R8; 30_encoding R90). -/

namespace Sys2Proof

/-- A raw byte or a character: `BYTE_BITS` = 8 (00_scope R6). -/
abbrev Byte := BitVec 8

/-- The packed word of a group: `WORD_BITS` = 32, unsigned (00_scope R6, R13). -/
abbrev Word := BitVec 32

/-- One base-85 digit value, 0..84 (00_scope R6 `BASE`, `DIGIT_MAX`; 10_state R21). -/
abbrev Digit := Fin 85

/-- The 9 bits of a token, `tok[8:0]` (30_encoding R90). -/
abbrev TokenBits := BitVec 9

end Sys2Proof
end

