-- ==== Sys2Proof/Config.lean ====
section
/-! DEFINITION. The constants of the block (00_scope R6). All are fixed in hardware; the spec leaves no value open, so no
constant here is a free value. `WRAP` and `CH_NL` are the two a model may keep as parameters (92 D9, D10; 93 U14; log entry 10). -/

namespace Sys2Proof.Config

/-- `WRAP`: the line-length threshold of the encoder, 75 (00_scope R6; 40_encoder R131; 90 C1). -/
abbrev wrap : BitVec 7 := 75

/-- `CH_NL`: the line break the encoder inserts, one byte LF (00_scope R6; 92 D9). -/
abbrev chNl : Byte := 10

/-- `CH_Z`: the zero-shorthand character (00_scope R6). -/
abbrev chZ : Byte := 122

/-- `CH_LT`: first header character (00_scope R6). -/
abbrev chLt : Byte := 60

/-- `CH_TILDE`: second header and first trailer character (00_scope R6). -/
abbrev chTilde : Byte := 126

/-- `CH_GT`: second trailer character (00_scope R6). -/
abbrev chGt : Byte := 62

/-- `CH_LO`: lowest digit character (00_scope R6). -/
abbrev chLo : Byte := 33

/-- `CH_HI`: highest digit character (00_scope R6). -/
abbrev chHi : Byte := 117

/-- `HDR`: the header (00_scope R6). -/
abbrev header : List Byte := [chLt, chTilde]

/-- `TRL`: the trailer (00_scope R6). -/
abbrev trailer : List Byte := [chTilde, chGt]

end Sys2Proof.Config
end

