-- ==== Sys2Proof/Syntax.lean ====
section
/-! DEFINITION. The operations of the block, one constructor per row of spec/opcode_table.json, and the names that select
them: the two agents, the sequencing registers, the token (10_state R21, R30, R40; 30_encoding R90, R102, R103). -/

namespace Sys2Proof

/-- The two agents (00_scope R18; 10_state R20). -/
inductive Agent where
  | enc   -- ENC, the encoder
  | dec   -- DEC, the decoder
deriving DecidableEq, Repr, Inhabited

/-- The values of `e_phase` (10_state R21, R30). The unused code 3 cannot be written down (93 U10). -/
inductive EPhase where
  | hdr    -- E_HDR: the header is not yet emitted
  | body   -- E_BODY: reading bytes, emitting groups
  | done   -- E_DONE: the trailer is emitted, the run is over
deriving DecidableEq, Repr, Inhabited

/-- The values of `d_state` (10_state R21, R40). The unused codes 6 and 7 cannot be written down (93 U10). -/
inductive DState where
  | seek    -- D_SEEK: discarding noise
  | lt      -- D_LT: a '<' has been popped, the next token is examined for '~'
  | pay     -- D_PAY: inside the payload
  | tilde   -- D_TILDE: a '~' has been popped, the next token is examined for '>'
  | done    -- D_DONE: terminal, success
  | err     -- D_ERR: terminal, error
deriving DecidableEq, Repr, Inhabited

/-- What `Peek()` returns: `BYTE(b)` or `END` (00_scope R10, R18; 30_encoding R90). -/
inductive Token where
  | byte (b : Byte)
  | eos
deriving DecidableEq, Repr

/-- The operations (opcode_table.json; 30_encoding R102, R103, R106). An operand is the part of the head token that the
row leaves open: the byte, or, for the two rows that take `END` as well, the token. -/
inductive Instr where
  /-- E.HDR: emit the header; examines no token (40_encoder R132). -/
  | eHdr
  /-- E.BUF: buffer a byte that does not complete a group (40_encoder R133). -/
  | eBuf (b : Byte)
  /-- E.GRP: the fourth byte of a group whose word is not zero (40_encoder R134). -/
  | eGrp (b : Byte)
  /-- E.GRPZ: the fourth byte, 0, of a group whose word is zero (40_encoder R135). -/
  | eGrpz
  /-- E.ENDP: end of source inside a group (40_encoder R136). -/
  | eEndp
  /-- E.END0: end of source on a group boundary (40_encoder R137). -/
  | eEnd0
  /-- D.SKIP: discard a noise byte (41_decoder R162). -/
  | dSkip (c : Byte)
  /-- D.LT: a '<' is seen (41_decoder R163). -/
  | dLt
  /-- D.EOFS: end of input while seeking (41_decoder R164). -/
  | dEofs
  /-- D.HDR: the '~' after '<' (41_decoder R165). -/
  | dHdr
  /-- D.LTMISS: the token after '<' is not '~' (41_decoder R166). -/
  | dLtmiss (t : Token)
  /-- D.TILDE: a '~' in the payload (41_decoder R167). -/
  | dTilde
  /-- D.WS: skip a whitespace character (41_decoder R168). -/
  | dWs (c : Byte)
  /-- D.Z: the shorthand on a group boundary (41_decoder R169). -/
  | dZ
  /-- D.ZERR: the shorthand inside a digit group (41_decoder R171). -/
  | dZerr
  /-- D.DIGIT: buffer a digit (41_decoder R170). -/
  | dDigit (c : Byte)
  /-- D.BAD: a byte of class OTHER (41_decoder R172). -/
  | dBad (c : Byte)
  /-- D.EOFP: end of input inside the payload (41_decoder R173). -/
  | dEofp
  /-- D.TRAILER: the '>' after '~' (41_decoder R174). -/
  | dTrailer
  /-- D.TILDEBAD: the token after '~' is not '>' (41_decoder R175). -/
  | dTildebad (t : Token)
deriving DecidableEq, Repr

/-- The part of an agent's registers that, with the head token, selects its operation (30_encoding R107: the row's
`state` and `guard`). -/
inductive Selector where
  /-- ENC: `e_phase`, `e_n` and the three bytes `e_grp[0..2]` that the guard on the packed word reads. -/
  | enc (phase : EPhase) (n : Fin 4) (b0 b1 b2 : Byte)
  /-- DEC: `d_state` and `d_k`. -/
  | dec (state : DState) (k : Fin 5)
deriving DecidableEq, Repr

end Sys2Proof
end

