-- ==== Sys2Proof/WellFormed.lean ====
section
/-! DEFINITION. Well-formed operations: an operand lies in the set of tokens its row of opcode_table.json selects
(30_encoding R107, the rows' `ranges`). The ranges stand here as the table lists them; the decoder is written from the
character classes of R100 instead, so that a slip in one is not repeated in the other. -/

namespace Sys2Proof

/-- `v` lies in one of the inclusive ranges. -/
def inRanges (rs : List (Nat × Nat)) (v : Nat) : Bool :=
  rs.any fun r => decide (r.1 ≤ v ∧ v ≤ r.2)

/-- The 9-bit number of a token as `ranges` counts it: `BYTE(b)` is b, `END` stands for every value 256..511, of which
256 is taken (30_encoding R90, R107; 93 U12). -/
def Token.number : Token → Nat
  | .byte b => b.toNat
  | .eos => 256

/-- The rows' `ranges`, in the table's order (opcode_table.json). -/
def Instr.ranges : Instr → List (Nat × Nat)
  | .eHdr => [(0, 511)]
  | .eBuf _ => [(0, 255)]
  | .eGrp _ => [(0, 255)]
  | .eGrpz => [(0, 0)]
  | .eEndp => [(256, 511)]
  | .eEnd0 => [(256, 511)]
  | .dSkip _ => [(0, 59), (61, 255)]
  | .dLt => [(60, 60)]
  | .dEofs => [(256, 511)]
  | .dHdr => [(126, 126)]
  | .dLtmiss _ => [(0, 125), (127, 255), (256, 511)]
  | .dTilde => [(126, 126)]
  | .dWs _ => [(9, 10), (13, 13), (32, 32)]
  | .dZ => [(122, 122)]
  | .dZerr => [(122, 122)]
  | .dDigit _ => [(33, 117)]
  | .dBad _ => [(0, 8), (11, 12), (14, 31), (118, 121), (123, 125), (127, 255)]
  | .dEofp => [(256, 511)]
  | .dTrailer => [(62, 62)]
  | .dTildebad _ => [(0, 61), (63, 255), (256, 511)]

/-- The operand of the operation lies in its row's ranges; a row without an operand is well formed. -/
def Instr.wellFormed (i : Instr) : Bool :=
  match i with
  | .eHdr | .eGrpz | .eEndp | .eEnd0 | .dLt | .dEofs | .dHdr | .dTilde | .dZ | .dZerr | .dEofp | .dTrailer => true
  | .eBuf b => inRanges i.ranges b.toNat
  | .eGrp b => inRanges i.ranges b.toNat
  | .dSkip c => inRanges i.ranges c.toNat
  | .dWs c => inRanges i.ranges c.toNat
  | .dDigit c => inRanges i.ranges c.toNat
  | .dBad c => inRanges i.ranges c.toNat
  | .dLtmiss t => inRanges i.ranges t.number
  | .dTildebad t => inRanges i.ranges t.number

end Sys2Proof
end

