-- ==== Sys2Proof/Decode.lean ====
section
/-! DEFINITION. The operation map as a decoder (10_state R42, R43; 30_encoding R90, R100, R102, R103, R107) and an encoder
beside it. The opcode of this block is the pair (sequencing registers, head token): the same token selects different
operations in different states, so `decode` takes the `Selector` as well as the token's bits. -/

namespace Sys2Proof

/-- The character classes of DEC (30_encoding R100). -/
inductive CharClass where
  | tilde | ws | z | digit | other
deriving DecidableEq, Repr

/-- The class of a byte (30_encoding R100). -/
def classify (c : Byte) : CharClass :=
  if c = Config.chTilde then .tilde
  else if c = 9 ∨ c = 10 ∨ c = 13 ∨ c = 32 then .ws
  else if c = Config.chZ then .z
  else if Config.chLo ≤ c ∧ c ≤ Config.chHi then .digit
  else .other

/-- A token from its 9 bits: bit 8 is `end`, and `data` is ignored when it is set (30_encoding R90). -/
def Token.ofBits (t : TokenBits) : Token :=
  if t.getLsbD 8 then .eos else .byte (t.setWidth 8)

/-- The 9 bits of a token; the ignored `data` of `END` is written 0 (30_encoding R90; 93 U12; log entry 11). -/
def Token.toBits : Token → TokenBits
  | .byte b => b.setWidth 9
  | .eos => 0x100#9

/-- Why no operation is enabled. -/
inductive Idle where
  /-- The agent needs a token and its source presents none: it waits (20_memory R62; 70_reset R234). -/
  | noToken
  /-- The agent is in a terminal state: its run is over (40_encoder R138; 41_decoder R176). -/
  | runOver
deriving DecidableEq, Repr

/-- What decoding answers: the one enabled operation, or by name why there is none. -/
inductive Decoded where
  | op (i : Instr)
  | idle (why : Idle)
deriving DecidableEq, Repr

/-- ENC's operation in `E_BODY` for a token (10_state R42; 30_encoding R102). The guard "packed word is zero" is read as
40_encoder R135 spells it out: all four bytes are 0. -/
def decodeBody (n : Fin 4) (b0 b1 b2 : Byte) : Token → Instr
  | .eos => if n = 0 then .eEnd0 else .eEndp
  | .byte b =>
    if n.val < 3 then .eBuf b
    else if b0 = 0 ∧ b1 = 0 ∧ b2 = 0 ∧ b = 0 then .eGrpz
    else .eGrp b

/-- DEC's operation in `D_SEEK` for a token (10_state R43; 30_encoding R103). -/
def decodeSeek : Token → Instr
  | .eos => .dEofs
  | .byte c => if c = Config.chLt then .dLt else .dSkip c

/-- DEC's operation in `D_LT` for a token (10_state R43; 30_encoding R103). -/
def decodeLt : Token → Instr
  | .eos => .dLtmiss .eos
  | .byte c => if c = Config.chTilde then .dHdr else .dLtmiss (.byte c)

/-- DEC's operation in `D_PAY` for a token (10_state R43; 30_encoding R103). -/
def decodePay (k : Fin 5) : Token → Instr
  | .eos => .dEofp
  | .byte c =>
    match classify c with
    | .tilde => .dTilde
    | .ws => .dWs c
    | .z => if k = 0 then .dZ else .dZerr
    | .digit => .dDigit c
    | .other => .dBad c

/-- DEC's operation in `D_TILDE` for a token (10_state R43; 30_encoding R103). -/
def decodeTilde : Token → Instr
  | .eos => .dTildebad .eos
  | .byte c => if c = Config.chGt then .dTrailer else .dTildebad (.byte c)

/-- The operation that needs a token, once one is presented. -/
def decodeToken (f : Token → Instr) : Option TokenBits → Decoded
  | none => .idle .noToken
  | some t => .op (f (Token.ofBits t))

/-- The operation map (10_state R42, R43). The second argument is the head token's bits, `none` while the source presents
no token. E.HDR alone needs none. -/
def decode (sel : Selector) (tok : Option TokenBits) : Decoded :=
  match sel with
  | .enc .hdr _ _ _ _ => .op .eHdr
  | .enc .body n b0 b1 b2 => decodeToken (decodeBody n b0 b1 b2) tok
  | .enc .done _ _ _ _ => .idle .runOver
  | .dec .seek _ => decodeToken decodeSeek tok
  | .dec .lt _ => decodeToken decodeLt tok
  | .dec .pay k => decodeToken (decodePay k) tok
  | .dec .tilde _ => decodeToken decodeTilde tok
  | .dec .done _ => .idle .runOver
  | .dec .err _ => .idle .runOver

/-- The token an operation stands for: its operand, or the one token of its row. E.HDR examines none, and `BYTE(0)` is
written for it. -/
def Instr.token : Instr → Token
  | .eHdr => .byte 0
  | .eBuf b => .byte b
  | .eGrp b => .byte b
  | .eGrpz => .byte 0
  | .eEndp => .eos
  | .eEnd0 => .eos
  | .dSkip c => .byte c
  | .dLt => .byte 60
  | .dEofs => .eos
  | .dHdr => .byte 126
  | .dLtmiss t => t
  | .dTilde => .byte 126
  | .dWs c => .byte c
  | .dZ => .byte 122
  | .dZerr => .byte 122
  | .dDigit c => .byte c
  | .dBad c => .byte c
  | .dEofp => .eos
  | .dTrailer => .byte 62
  | .dTildebad t => t

/-- The 9 bits of the token an operation stands for. -/
def encode (i : Instr) : TokenBits := i.token.toBits

/-- The row's agent (opcode_table.json, `agent`). -/
def Instr.agent : Instr → Agent
  | .eHdr | .eBuf _ | .eGrp _ | .eGrpz | .eEndp | .eEnd0 => .enc
  | .dSkip _ | .dLt | .dEofs | .dHdr | .dLtmiss _ | .dTilde | .dWs _ | .dZ | .dZerr | .dDigit _ | .dBad _ | .dEofp
  | .dTrailer | .dTildebad _ => .dec

/-- The row's `pops`: whether the operation pops its head token (10_state R42, R43). -/
def Instr.pops : Instr → Bool
  | .eBuf _ | .eGrp _ | .eGrpz | .dSkip _ | .dLt | .dHdr | .dTilde | .dWs _ | .dZ | .dZerr | .dDigit _ | .dBad _
  | .dTrailer => true
  | .eHdr | .eEndp | .eEnd0 | .dEofs | .dLtmiss _ | .dEofp | .dTildebad _ => false

/-- The selectors a row asks for: its `state` and `guard` (opcode_table.json; 10_state R42, R43). -/
def Instr.fits (i : Instr) (sel : Selector) : Bool :=
  match i, sel with
  | .eHdr, .enc p _ _ _ _ => decide (p = .hdr)
  | .eBuf _, .enc p n _ _ _ => decide (p = .body ∧ n.val < 3)
  | .eGrp b, .enc p n b0 b1 b2 => decide (p = .body ∧ n = 3 ∧ ¬ (b0 = 0 ∧ b1 = 0 ∧ b2 = 0 ∧ b = 0))
  | .eGrpz, .enc p n b0 b1 b2 => decide (p = .body ∧ n = 3 ∧ b0 = 0 ∧ b1 = 0 ∧ b2 = 0)
  | .eEndp, .enc p n _ _ _ => decide (p = .body ∧ n ≠ 0)
  | .eEnd0, .enc p n _ _ _ => decide (p = .body ∧ n = 0)
  | .dSkip _, .dec st _ => decide (st = .seek)
  | .dLt, .dec st _ => decide (st = .seek)
  | .dEofs, .dec st _ => decide (st = .seek)
  | .dHdr, .dec st _ => decide (st = .lt)
  | .dLtmiss _, .dec st _ => decide (st = .lt)
  | .dTilde, .dec st _ => decide (st = .pay)
  | .dWs _, .dec st _ => decide (st = .pay)
  | .dZ, .dec st k => decide (st = .pay ∧ k = 0)
  | .dZerr, .dec st k => decide (st = .pay ∧ k ≠ 0)
  | .dDigit _, .dec st _ => decide (st = .pay)
  | .dBad _, .dec st _ => decide (st = .pay)
  | .dEofp, .dec st _ => decide (st = .pay)
  | .dTrailer, .dec st _ => decide (st = .tilde)
  | .dTildebad _, .dec st _ => decide (st = .tilde)
  | .eHdr, .dec _ _ | .eBuf _, .dec _ _ | .eGrp _, .dec _ _ | .eGrpz, .dec _ _ | .eEndp, .dec _ _ | .eEnd0, .dec _ _ => false
  | .dSkip _, .enc _ _ _ _ _ | .dLt, .enc _ _ _ _ _ | .dEofs, .enc _ _ _ _ _ | .dHdr, .enc _ _ _ _ _
  | .dLtmiss _, .enc _ _ _ _ _ | .dTilde, .enc _ _ _ _ _ | .dWs _, .enc _ _ _ _ _ | .dZ, .enc _ _ _ _ _
  | .dZerr, .enc _ _ _ _ _ | .dDigit _, .enc _ _ _ _ _ | .dBad _, .enc _ _ _ _ _ | .dEofp, .enc _ _ _ _ _
  | .dTrailer, .enc _ _ _ _ _ | .dTildebad _, .enc _ _ _ _ _ => false

/-- The token bits of a table word of `nbits` bits; a word with a bit above bit 8 is no token (30_encoding R90). -/
def tableToken (nbits w : Nat) : Option TokenBits :=
  if w % 2 ^ nbits < 512 then some (BitVec.ofNat 9 (w % 2 ^ nbits)) else none

/-- A selector for a token given alone (log entry 9): the one that makes `decode` answer the row whose `ranges` hold the
fewest tokens among the rows that contain this one, and the earliest of those. A token alone selects no operation on this
hardware; this choice serves only the host's question about the table's rows. -/
def tableSelector (t : TokenBits) : Selector :=
  match Token.ofBits t with
  | .eos => .enc .body 1 0 0 0
  | .byte b =>
    if b = 0 then .enc .body 3 0 0 0
    else if b = Config.chLt then .dec .seek 0
    else if b = Config.chGt then .dec .tilde 0
    else if b = Config.chTilde then .dec .lt 0
    else .dec .pay 0

/-- The operation the decoder reads from a table word, under `tableSelector` (log entry 9). -/
def decodeTableWord (nbits w : Nat) : Option Instr :=
  match tableToken nbits w with
  | none => none
  | some t =>
    match decode (tableSelector t) (some t) with
    | .op i => some i
    | .idle _ => none

end Sys2Proof
end

