-- ==== Sys2Proof/Machine/State.lean ====
section
/-! DEFINITION. The state of the block: ENC's registers and streams, DEC's registers and streams (10_state R20, R21), and
the list of moves still to come, which is the model's own (log entries 1, 2). Reset values as 10_state R51. -/

namespace Sys2Proof.Machine

/-- `e_grp[0..3]`, the group buffer (10_state R22). -/
structure Group where
  b0 : Byte
  b1 : Byte
  b2 : Byte
  b3 : Byte
deriving DecidableEq, Repr

/-- `d_dig[0..4]`, the digit buffer; also any tuple of five digits, most significant first (10_state R35; 00_scope R14). -/
structure Digits where
  g0 : Digit
  g1 : Digit
  g2 : Digit
  g3 : Digit
  g4 : Digit
deriving DecidableEq, Repr

/-- The values of `d_err` (10_state R21, R44; 60_exceptions R201). -/
inductive DErr where
  | none                  -- ERR_NONE
  | malformedDigit        -- ERR_MALFORMED_DIGIT
  | unexpectedShorthand   -- ERR_UNEXPECTED_SHORTHAND
deriving DecidableEq, Repr, Inhabited

/-- A source: the bytes the host has presented so far, the read position, and whether it signals `END` after them
(20_memory R60). -/
structure Source where
  bytes  : List Byte
  pos    : Nat
  closed : Bool
deriving DecidableEq, Repr

/-- A sink: the bytes emitted since reset (20_memory R63) and how many of them the port has presented (10_state R49 item 2;
20_memory R66). -/
structure Sink where
  bytes : List Byte
  sent  : Nat
deriving DecidableEq, Repr

/-- ENC: its registers, source, sink and reset line. -/
structure Enc where
  /-- `e_phase` (10_state R30) -/
  phase : EPhase
  /-- `e_n`, bytes buffered (10_state R23) -/
  n     : Fin 4
  /-- `e_col`, characters on the current line (10_state R24) -/
  col   : BitVec 7
  /-- `e_grp[0..3]` (10_state R22) -/
  grp   : Group
  src   : Source
  sink  : Sink
  /-- the input line `e_rst` (70_reset R230) -/
  rst   : Bool
deriving DecidableEq, Repr

/-- DEC: its registers, source, sink and reset line. -/
structure Dec where
  /-- `d_state` (10_state R40) -/
  state : DState
  /-- `d_k`, digits buffered (10_state R36) -/
  k     : Fin 5
  /-- `d_dig[0..4]` (10_state R35) -/
  dig   : Digits
  /-- `d_err` (10_state R44) -/
  err   : DErr
  src   : Source
  sink  : Sink
  /-- the input line `d_rst` (70_reset R230) -/
  rst   : Bool
deriving DecidableEq, Repr

/-- One move of the system: a turn of an agent or of a sink port, or an action of the host (70_reset R243; log entries 1,
2, 5). -/
inductive Move where
  /-- the agent takes the one operation it has enabled, if it has one -/
  | turn (a : Agent)
  /-- the agent's sink port presents its next byte, if there is one (20_memory R66) -/
  | port (a : Agent)
  /-- the host drives the agent's reset line (70_reset R230) -/
  | setReset (a : Agent) (level : Bool)
  /-- the host presents one more byte (20_memory R60, R62) -/
  | offer (a : Agent) (b : Byte)
  /-- the host signals `END` (20_memory R62) -/
  | close (a : Agent)
  /-- the host withdraws `END` while the agent is in reset, to start another stream (20_memory R62) -/
  | reopen (a : Agent)
deriving DecidableEq, Repr

/-- The state of the block. -/
structure State where
  enc   : Enc
  dec   : Dec
  /-- the moves still to come, oldest first (the model's own field; log entry 1) -/
  moves : List Move
deriving DecidableEq, Repr

/-- Why a step stops. No step does (`step` runs only operations its decoder has found enabled); only an operation applied by
hand to a state that does not enable it. -/
inductive Fault where
  /-- Raised by `onEnc` and `onDec` in Machine/Ops.lean: the operation `i` was applied in a state whose registers and head token
  do not select it, where 10_state R42 and R43 give it no effect. Safe: nothing is claimed of such a state. -/
  | notEnabled (i : Instr)
deriving DecidableEq, Repr

/-- Why an operation has no meaning. -/
inductive Refusal where
  /-- Raised by exec's arm of an operation without a meaning; no arm is left that raises it. Safe. -/
  | notModelled (mnemonic : String)
deriving DecidableEq, Repr

/-- A group buffer of zeros (10_state R51). -/
def Group.zero : Group := ⟨0, 0, 0, 0⟩

/-- A digit buffer of zeros (10_state R51). -/
def Digits.zero : Digits := ⟨0, 0, 0, 0, 0⟩

/-- A source that has presented nothing (log entry 4). -/
def Source.empty : Source := ⟨[], 0, false⟩

/-- A sink with nothing emitted (10_state R51). -/
def Sink.empty : Sink := ⟨[], 0⟩

/-- The block right after both agents' resets (10_state R51): the registers at their reset values, the sinks empty, the reset
lines low again, the host having presented nothing and planned no move (log entries 1, 4). -/
def State.reset : State where
  enc   := { phase := .hdr, n := 0, col := 0, grp := Group.zero, src := Source.empty, sink := Sink.empty, rst := false }
  dec   := { state := .seek, k := 0, dig := Digits.zero, err := .none, src := Source.empty, sink := Sink.empty, rst := false }
  moves := []

end Sys2Proof.Machine
end

