-- ==== Sys2Proof/Machine/Operands.lean ====
section
/-! DEFINITION. The arithmetic primitives and the indexed access to the two buffers (00_scope R9, R12 to R16; 30_encoding
R95 to R97). -/

namespace Sys2Proof.Machine

/-- `Pack(b0, b1, b2, b3)`: big-endian, the first byte most significant (00_scope R13). -/
def pack (b0 b1 b2 b3 : Byte) : Word := b0 ++ b1 ++ b2 ++ b3

/-- `Unpack(w)`: the four bytes, most significant first (00_scope R13). -/
def unpack (w : Word) : List Byte :=
  [w.extractLsb' 24 8, w.extractLsb' 16 8, w.extractLsb' 8 8, w.extractLsb' 0 8]

/-- `Digits(w)`: five digits, most significant first, by repeated division by 85 (00_scope R14). -/
def digits (w : Word) : Digits :=
  let q1 := w.toNat / 85
  let q2 := q1 / 85
  let q3 := q2 / 85
  let q4 := q3 / 85
  { g0 := Fin.ofNat 85 q4
    g1 := Fin.ofNat 85 (q3 % 85)
    g2 := Fin.ofNat 85 (q2 % 85)
    g3 := Fin.ofNat 85 (q1 % 85)
    g4 := Fin.ofNat 85 (w.toNat % 85) }

/-- The five digits as a list, most significant first. -/
def Digits.toList (d : Digits) : List Digit := [d.g0, d.g1, d.g2, d.g3, d.g4]

/-- One turn of the loop of `Fold`: `w * 85 + g` modulo 2^32 (00_scope R15). -/
def foldStep (w : Word) (g : Digit) : Word := w * 85 + BitVec.ofNat 32 g.val

/-- `Fold(g0, .., g4)` modulo 2^32 (00_scope R15). -/
def fold (d : Digits) : Word := d.toList.foldl foldStep 0

/-- `Chr(g) = g + 33` (00_scope R16). -/
def chr (g : Digit) : Byte := BitVec.ofNat 8 (g.val + 33)

/-- `Val(c) = c - 33`, applied to characters 33..117 alone (00_scope R16). -/
def val (c : Byte) : Digit := Fin.ofNat 85 (c.toNat - 33)

/-- The characters of `Digits(w)`, most significant first. -/
def chars (w : Word) : List Byte := (digits w).toList.map chr

/-- `e_grp[i] <- b` (00_scope R9). -/
def Group.put (g : Group) (i : Fin 4) (b : Byte) : Group :=
  match i with
  | 0 => { g with b0 := b }
  | 1 => { g with b1 := b }
  | 2 => { g with b2 := b }
  | 3 => { g with b3 := b }

/-- The word of the `n` buffered bytes, the missing positions zero (30_encoding R95; 40_encoder R136). -/
def Group.word (g : Group) (n : Fin 4) : Word :=
  pack g.b0 (if 2 ≤ n.val then g.b1 else 0) (if 3 ≤ n.val then g.b2 else 0) 0

/-- `d_dig[i] <- v` (00_scope R9). -/
def Digits.put (d : Digits) (i : Fin 5) (v : Digit) : Digits :=
  match i with
  | 0 => { d with g0 := v }
  | 1 => { d with g1 := v }
  | 2 => { d with g2 := v }
  | 3 => { d with g3 := v }
  | 4 => { d with g4 := v }

/-- `for i in k .. 4: d_dig[i] <- 84` (41_decoder R161). -/
def Digits.pad (d : Digits) (k : Fin 5) : Digits where
  g0 := if k.val ≤ 0 then 84 else d.g0
  g1 := if k.val ≤ 1 then 84 else d.g1
  g2 := if k.val ≤ 2 then 84 else d.g2
  g3 := if k.val ≤ 3 then 84 else d.g3
  g4 := 84

end Sys2Proof.Machine
end

