-- ==== Sys2Proof/Machine/Ops.lean ====
section
/-! DEFINITION. The named operations over streams and registers: Peek, Pop, Emit (00_scope R10), PutChar (40_encoder R131),
Flush (41_decoder R161), raise (60_exceptions R204), reset (70_reset R230), the host's actions (70_reset R243), and which
operation is enabled (10_state R42, R43). There is no return from an exception (60_exceptions R207). -/

namespace Sys2Proof.Machine

/-! Streams -/

/-- `Peek()`: the head token, or nothing while the source has no answer yet (00_scope R10; 20_memory R60). -/
def Source.peek (s : Source) : Option Token :=
  match s.bytes[s.pos]? with
  | some b => some (.byte b)
  | none => if s.closed then some .eos else none

/-- The bits the input port presents for the head token (30_encoding R90). -/
def Source.peekBits (s : Source) : Option TokenBits := s.peek.map Token.toBits

/-- `Pop()`: removes the head byte (00_scope R10; 20_memory R60). -/
def Source.pop (s : Source) : Source := { s with pos := s.pos + 1 }

/-- `Emit(b1, b2, ..)`: appends bytes to the sink in that order (00_scope R10). -/
def Sink.emit (s : Sink) (bs : List Byte) : Sink := { s with bytes := s.bytes ++ bs }

/-- Bytes emitted and not yet presented on the port (10_state R49 item 2). -/
def Sink.backlog (s : Sink) : Bool := decide (s.sent < s.bytes.length)

/-- The port presents one byte, if one waits (20_memory R66). -/
def Sink.present (s : Sink) : Sink := if s.backlog then { s with sent := s.sent + 1 } else s

def Enc.pop (e : Enc) : Enc := { e with src := e.src.pop }

def Enc.emit (e : Enc) (bs : List Byte) : Enc := { e with sink := e.sink.emit bs }

def Dec.pop (d : Dec) : Dec := { d with src := d.src.pop }

def Dec.emit (d : Dec) (bs : List Byte) : Dec := { d with sink := d.sink.emit bs }

/-! Procedures -/

/-- The line-wrap check of `PutChar`: a line break when the line is full (40_encoder R131; 90 C1). -/
def Enc.wrapCheck (e : Enc) : Enc :=
  if Config.wrap ≤ e.col then { e.emit [Config.chNl] with col := 0 } else e

/-- `PutChar(c)`: emit one payload character under the line-wrap check (40_encoder R131). -/
def Enc.putChar (e : Enc) (c : Byte) : Enc :=
  let f := e.wrapCheck
  { f.emit [c] with col := f.col + 1 }

/-- `PutChar` of each character in turn. -/
def Enc.putChars (e : Enc) (cs : List Byte) : Enc := cs.foldl Enc.putChar e

/-- `Flush()`: write out a buffered partial digit group (41_decoder R161). -/
def Dec.flush (d : Dec) : Dec :=
  if 0 < d.k.val then
    let p := d.dig.pad d.k
    { d.emit ((unpack (fold p)).take (d.k.val - 1)) with dig := p, k := 0 }
  else { d with k := 0 }

/-- The two exceptions of the block (60_exceptions R201). -/
inductive Cause where
  | malformedDigit
  | unexpectedShorthand
deriving DecidableEq, Repr

/-- The value an exception writes to `d_err` (60_exceptions R201). -/
def Cause.code : Cause → DErr
  | .malformedDigit => .malformedDigit
  | .unexpectedShorthand => .unexpectedShorthand

/-- `raise X`: taking an exception (60_exceptions R204). Nothing is emitted, nothing is flushed, no other register changes. -/
def Dec.raise (d : Dec) (x : Cause) : Dec := { d with err := x.code, state := .err }

/-! Reset and the host -/

/-- What is left of a source when its agent is reset: the bytes not yet popped are the next run's source, and its read
position counts from there (70_reset R240 item 6; log entry 5). -/
def Source.rebase (s : Source) : Source := { s with bytes := s.bytes.drop s.pos, pos := 0 }

/-- ENC samples its reset line high (70_reset R230; 10_state R51). -/
def Enc.takeReset (e : Enc) : Enc :=
  { e with phase := .hdr, n := 0, col := 0, grp := ⟨0, 0, 0, 0⟩, src := e.src.rebase, sink := ⟨[], 0⟩ }

/-- DEC samples its reset line high (70_reset R230; 10_state R51). -/
def Dec.takeReset (d : Dec) : Dec :=
  { d with state := .seek, k := 0, dig := ⟨0, 0, 0, 0, 0⟩, err := .none, src := d.src.rebase, sink := ⟨[], 0⟩ }

/-- The host presents one more byte; once it has signalled `END` it has no such move (20_memory R62; log entry 2). -/
def Source.offer (s : Source) (b : Byte) : Source :=
  if s.closed then s else { s with bytes := s.bytes ++ [b] }

/-- The host signals `END` (20_memory R62). -/
def Source.close (s : Source) : Source := { s with closed := true }

/-- The host withdraws `END` (20_memory R62: held until the agent is reset). -/
def Source.reopen (s : Source) : Source := { s with closed := false }

/-- A change of one agent's source. -/
def State.onSource (s : State) (a : Agent) (f : Source → Source) : State :=
  match a with
  | .enc => { s with enc := { s.enc with src := f s.enc.src } }
  | .dec => { s with dec := { s.dec with src := f s.dec.src } }

/-- The level of an agent's reset line. -/
def State.inReset (s : State) (a : Agent) : Bool :=
  match a with
  | .enc => s.enc.rst
  | .dec => s.dec.rst

/-- The agent takes its reset values (70_reset R230). -/
def State.takeReset (s : State) (a : Agent) : State :=
  match a with
  | .enc => { s with enc := s.enc.takeReset }
  | .dec => { s with dec := s.dec.takeReset }

/-- The host drives a reset line; a high level is sampled at once (70_reset R230; log entry 5). -/
def State.setReset (s : State) (a : Agent) (level : Bool) : State :=
  let t : State :=
    match a with
    | .enc => { s with enc := { s.enc with rst := level } }
    | .dec => { s with dec := { s.dec with rst := level } }
  if level then t.takeReset a else t

/-- The agent's sink port presents one byte (20_memory R66). -/
def State.present (s : State) (a : Agent) : State :=
  match a with
  | .enc => { s with enc := { s.enc with sink := s.enc.sink.present } }
  | .dec => { s with dec := { s.dec with sink := s.dec.sink.present } }

/-- Whether the agent's port still has bytes to present. -/
def State.backlog (s : State) (a : Agent) : Bool :=
  match a with
  | .enc => s.enc.sink.backlog
  | .dec => s.dec.sink.backlog

/-! Selecting and enabling -/

/-- The registers that select ENC's operation (30_encoding R102). -/
def Enc.selector (e : Enc) : Selector := .enc e.phase e.n e.grp.b0 e.grp.b1 e.grp.b2

/-- The registers that select DEC's operation (30_encoding R103). -/
def Dec.selector (d : Dec) : Selector := .dec d.state d.k

/-- The agent's enabled operation, found by the decoder from its registers and the head token. -/
def State.select (s : State) (a : Agent) : Decoded :=
  match a with
  | .enc => decode s.enc.selector s.enc.src.peekBits
  | .dec => decode s.dec.selector s.dec.src.peekBits

/-- Whether the operation is enabled: the row of 10_state R42 or R43, with its head token and its extra condition. Written
from those tables and not from `decode`. -/
def enabled (i : Instr) (s : State) : Bool :=
  match i with
  | .eHdr => decide (s.enc.phase = .hdr)
  | .eBuf b => decide (s.enc.phase = .body ∧ s.enc.src.peek = some (.byte b) ∧ s.enc.n.val < 3)
  | .eGrp b => decide (s.enc.phase = .body ∧ s.enc.src.peek = some (.byte b) ∧ s.enc.n = 3
      ∧ pack s.enc.grp.b0 s.enc.grp.b1 s.enc.grp.b2 b ≠ 0)
  | .eGrpz => decide (s.enc.phase = .body ∧ s.enc.src.peek = some (.byte 0) ∧ s.enc.n = 3
      ∧ pack s.enc.grp.b0 s.enc.grp.b1 s.enc.grp.b2 0 = 0)
  | .eEndp => decide (s.enc.phase = .body ∧ s.enc.src.peek = some .eos ∧ s.enc.n ≠ 0)
  | .eEnd0 => decide (s.enc.phase = .body ∧ s.enc.src.peek = some .eos ∧ s.enc.n = 0)
  | .dSkip c => decide (s.dec.state = .seek ∧ s.dec.src.peek = some (.byte c) ∧ c ≠ 60)
  | .dLt => decide (s.dec.state = .seek ∧ s.dec.src.peek = some (.byte 60))
  | .dEofs => decide (s.dec.state = .seek ∧ s.dec.src.peek = some .eos)
  | .dHdr => decide (s.dec.state = .lt ∧ s.dec.src.peek = some (.byte 126))
  | .dLtmiss t => decide (s.dec.state = .lt ∧ s.dec.src.peek = some t ∧ t ≠ .byte 126)
  | .dTilde => decide (s.dec.state = .pay ∧ s.dec.src.peek = some (.byte 126))
  | .dWs c => decide (s.dec.state = .pay ∧ s.dec.src.peek = some (.byte c) ∧ (c = 9 ∨ c = 10 ∨ c = 13 ∨ c = 32))
  | .dZ => decide (s.dec.state = .pay ∧ s.dec.src.peek = some (.byte 122) ∧ s.dec.k = 0)
  | .dZerr => decide (s.dec.state = .pay ∧ s.dec.src.peek = some (.byte 122) ∧ s.dec.k ≠ 0)
  | .dDigit c => decide (s.dec.state = .pay ∧ s.dec.src.peek = some (.byte c) ∧ 33 ≤ c.toNat ∧ c.toNat ≤ 117)
  | .dBad c => decide (s.dec.state = .pay ∧ s.dec.src.peek = some (.byte c)
      ∧ c ≠ 126 ∧ ¬ (c = 9 ∨ c = 10 ∨ c = 13 ∨ c = 32) ∧ c ≠ 122 ∧ ¬ (33 ≤ c.toNat ∧ c.toNat ≤ 117))
  | .dEofp => decide (s.dec.state = .pay ∧ s.dec.src.peek = some .eos)
  | .dTrailer => decide (s.dec.state = .tilde ∧ s.dec.src.peek = some (.byte 62))
  | .dTildebad t => decide (s.dec.state = .tilde ∧ s.dec.src.peek = some t ∧ t ≠ .byte 62)

/-- An operation of ENC: where it is enabled it changes ENC by `f` and nothing else (10_state R20). -/
def onEnc (i : Instr) (s : State) (f : Enc → Enc) : Host.Outcome State Fault Refusal :=
  if enabled i s then .next { s with enc := f s.enc } else .fault (.notEnabled i)

/-- An operation of DEC: where it is enabled it changes DEC by `f` and nothing else (10_state R20). -/
def onDec (i : Instr) (s : State) (f : Dec → Dec) : Host.Outcome State Fault Refusal :=
  if enabled i s then .next { s with dec := f s.dec } else .fault (.notEnabled i)

/-- The state with a token at the head of the selected agent's source, its selecting registers set, its reset line low, its
port drained and its turn next (log entry 9). -/
def State.place (s : State) (sel : Selector) (t : Token) : State :=
  let put (src : Source) : Source :=
    match t with
    | .byte b => { src with bytes := src.bytes.take src.pos ++ b :: src.bytes.drop (src.pos + 1), pos := min src.pos src.bytes.length }
    | .eos => { src with bytes := src.bytes.take src.pos, closed := true }
  match sel with
  | .enc phase n b0 b1 b2 =>
    { s with
      enc := { s.enc with
        phase := phase, n := n, grp := { s.enc.grp with b0 := b0, b1 := b1, b2 := b2 }, src := put s.enc.src,
        sink := { s.enc.sink with sent := s.enc.sink.bytes.length }, rst := false }
      moves := .turn .enc :: s.moves }
  | .dec state k =>
    { s with
      dec := { s.dec with
        state := state, k := k, src := put s.dec.src,
        sink := { s.dec.sink with sent := s.dec.sink.bytes.length }, rst := false }
      moves := .turn .dec :: s.moves }

end Sys2Proof.Machine
end

