-- ==== Sys2Proof/Machine/Flags.lean ====
section
/-! DEFINITION. The status outputs and the port signals: functions of the state that no operation reads (10_state R31, R45;
20_memory R62, R66), and the enumeration codes of 10_state R21 and 60_exceptions R201. The block has no condition codes. -/

namespace Sys2Proof.Machine

/-- The 2-bit code of `e_phase` (10_state R21). -/
def phaseCode : EPhase → BitVec 2
  | .hdr => 0
  | .body => 1
  | .done => 2

/-- The 3-bit code of `d_state` (10_state R21). -/
def stateCode : DState → BitVec 3
  | .seek => 0
  | .lt => 1
  | .pay => 2
  | .tilde => 3
  | .done => 4
  | .err => 5

/-- The 2-bit code of `d_err` (10_state R21; 60_exceptions R201). -/
def errCode : DErr → BitVec 2
  | .none => 0
  | .malformedDigit => 1
  | .unexpectedShorthand => 2

/-- `e_done` (10_state R31). -/
def eDone (s : State) : Bool := decide (s.enc.phase = .done)

/-- `d_done` (10_state R45). -/
def dDone (s : State) : Bool := decide (s.dec.state = .done)

/-- `d_error` (10_state R45). -/
def dError (s : State) : Bool := decide (s.dec.state = .err)

/-- `d_err_code` (10_state R45). -/
def dErrCode (s : State) : BitVec 2 := errCode s.dec.err

/-- DEC is running (10_state R45). -/
def dRunning (s : State) : Bool :=
  decide (s.dec.state = .seek ∨ s.dec.state = .lt ∨ s.dec.state = .pay ∨ s.dec.state = .tilde)

/-- The source of an agent. -/
def State.source (s : State) (a : Agent) : Source :=
  match a with
  | .enc => s.enc.src
  | .dec => s.dec.src

/-- The sink of an agent. -/
def State.sink (s : State) (a : Agent) : Sink :=
  match a with
  | .enc => s.enc.sink
  | .dec => s.dec.sink

/-- `x_in_valid`: `Peek()` has an answer (20_memory R62). -/
def inValid (s : State) (a : Agent) : Bool := (s.source a).peek.isSome

/-- `x_in_end`: the token presented is `END` (20_memory R62). -/
def inEnd (s : State) (a : Agent) : Bool := decide ((s.source a).peek = some .eos)

/-- `x_in_data[7:0]`; 0 where the spec says it is ignored or no token is presented (20_memory R62; 93 U12; log entry 11). -/
def inData (s : State) (a : Agent) : Byte :=
  match (s.source a).peek with
  | some (.byte b) => b
  | some .eos => 0
  | none => 0

/-- `x_in_pop`: the agent pops its head token when it takes its next turn; held low while emitted bytes wait for the port and
in reset (20_memory R62, R66). -/
def inPop (s : State) (a : Agent) : Bool :=
  inValid s a && !s.backlog a && !s.inReset a &&
    match s.select a with
    | .op i => i.pops
    | .idle _ => false

/-- `x_out_valid`: a byte emitted waits to be presented (20_memory R66). -/
def outValid (s : State) (a : Agent) : Bool := s.backlog a

/-- `x_out_data[7:0]`: the next byte in emission order; 0 while none waits (20_memory R66; log entry 11). -/
def outData (s : State) (a : Agent) : Byte := ((s.sink a).bytes[(s.sink a).sent]?).getD 0

end Sys2Proof.Machine
end

