-- ==== Sys2Proof/Machine/Decoder.lean ====
section
/-! DEFINITION. The operations of DEC, one definition each (41_decoder R162 to R175). -/

namespace Sys2Proof.Machine

/-- The effect of D.SKIP (41_decoder R162). -/
def effDSkip (d : Dec) : Dec :=
  d.pop

/-- D.SKIP (41_decoder R162). -/
def execDSkip (c : Byte) (s : State) : Host.Outcome State Fault Refusal := onDec (.dSkip c) s effDSkip

/-- The effect of D.LT (41_decoder R163). -/
def effDLt (d : Dec) : Dec :=
  { d.pop with state := .lt }

/-- D.LT (41_decoder R163). -/
def execDLt (s : State) : Host.Outcome State Fault Refusal := onDec .dLt s effDLt

/-- The effect of D.EOFS (41_decoder R164). -/
def effDEofs (d : Dec) : Dec :=
  { d with state := .done }

/-- D.EOFS (41_decoder R164). -/
def execDEofs (s : State) : Host.Outcome State Fault Refusal := onDec .dEofs s effDEofs

/-- The effect of D.HDR (41_decoder R165). -/
def effDHdr (d : Dec) : Dec :=
  { d.pop with k := 0, state := .pay }

/-- D.HDR (41_decoder R165). -/
def execDHdr (s : State) : Host.Outcome State Fault Refusal := onDec .dHdr s effDHdr

/-- The effect of D.LTMISS (41_decoder R166). -/
def effDLtmiss (d : Dec) : Dec :=
  { d with state := .seek }

/-- D.LTMISS (41_decoder R166). -/
def execDLtmiss (t : Token) (s : State) : Host.Outcome State Fault Refusal := onDec (.dLtmiss t) s effDLtmiss

/-- The effect of D.TILDE (41_decoder R167). -/
def effDTilde (d : Dec) : Dec :=
  { d.pop with state := .tilde }

/-- D.TILDE (41_decoder R167). -/
def execDTilde (s : State) : Host.Outcome State Fault Refusal := onDec .dTilde s effDTilde

/-- The effect of D.WS (41_decoder R168). -/
def effDWs (d : Dec) : Dec :=
  d.pop

/-- D.WS (41_decoder R168). -/
def execDWs (c : Byte) (s : State) : Host.Outcome State Fault Refusal := onDec (.dWs c) s effDWs

/-- The effect of D.Z (41_decoder R169). -/
def effDZ (d : Dec) : Dec :=
  d.pop.emit [0, 0, 0, 0]

/-- D.Z (41_decoder R169). -/
def execDZ (s : State) : Host.Outcome State Fault Refusal := onDec .dZ s effDZ

/-- The effect of D.ZERR (41_decoder R171): raises UnexpectedShorthand. -/
def effDZerr (d : Dec) : Dec :=
  d.pop.raise .unexpectedShorthand

/-- D.ZERR (41_decoder R171): raises UnexpectedShorthand. -/
def execDZerr (s : State) : Host.Outcome State Fault Refusal := onDec .dZerr s effDZerr

/-- The effect of D.DIGIT (41_decoder R170). -/
def effDDigit (c : Byte) (d : Dec) : Dec :=
  let f := { d.pop with dig := d.dig.put d.k (val c) }
  if d.k = 4 then { f.emit (unpack (fold f.dig)) with k := 0 }
  else { f with k := d.k + 1 }

/-- D.DIGIT (41_decoder R170). -/
def execDDigit (c : Byte) (s : State) : Host.Outcome State Fault Refusal := onDec (.dDigit c) s (effDDigit c)

/-- The effect of D.BAD (41_decoder R172): raises MalformedDigit. -/
def effDBad (d : Dec) : Dec :=
  d.pop.raise .malformedDigit

/-- D.BAD (41_decoder R172): raises MalformedDigit. -/
def execDBad (c : Byte) (s : State) : Host.Outcome State Fault Refusal := onDec (.dBad c) s effDBad

/-- The effect of D.EOFP (41_decoder R173). -/
def effDEofp (d : Dec) : Dec :=
  { d.flush with state := .done }

/-- D.EOFP (41_decoder R173). -/
def execDEofp (s : State) : Host.Outcome State Fault Refusal := onDec .dEofp s effDEofp

/-- The effect of D.TRAILER (41_decoder R174). -/
def effDTrailer (d : Dec) : Dec :=
  { d.pop.flush with state := .done }

/-- D.TRAILER (41_decoder R174). -/
def execDTrailer (s : State) : Host.Outcome State Fault Refusal := onDec .dTrailer s effDTrailer

/-- The effect of D.TILDEBAD (41_decoder R175): raises MalformedDigit, the look-ahead token kept. -/
def effDTildebad (d : Dec) : Dec :=
  d.raise .malformedDigit

/-- D.TILDEBAD (41_decoder R175): raises MalformedDigit, the look-ahead token kept. -/
def execDTildebad (t : Token) (s : State) : Host.Outcome State Fault Refusal := onDec (.dTildebad t) s effDTildebad

end Sys2Proof.Machine
end

