-- ==== Sys2Proof/Machine/Encoder.lean ====
section
/-! DEFINITION. The operations of ENC, one definition each (40_encoder R132 to R137). ENC raises no exception (R130). -/

namespace Sys2Proof.Machine

/-- The effect of E.HDR (40_encoder R132). -/
def effEHdr (e : Enc) : Enc :=
  { e.emit Config.header with col := 2, phase := .body }

/-- E.HDR (40_encoder R132). -/
def execEHdr (s : State) : Host.Outcome State Fault Refusal := onEnc .eHdr s effEHdr

/-- The effect of E.BUF (40_encoder R133). -/
def effEBuf (b : Byte) (e : Enc) : Enc :=
  { e.pop with grp := e.grp.put e.n b, n := e.n + 1 }

/-- E.BUF (40_encoder R133). -/
def execEBuf (b : Byte) (s : State) : Host.Outcome State Fault Refusal := onEnc (.eBuf b) s (effEBuf b)

/-- The effect of E.GRP (40_encoder R134). -/
def effEGrp (b : Byte) (e : Enc) : Enc :=
  let f := { e.pop with grp := e.grp.put 3 b }
  { f.putChars (chars (pack f.grp.b0 f.grp.b1 f.grp.b2 f.grp.b3)) with n := 0 }

/-- E.GRP (40_encoder R134). -/
def execEGrp (b : Byte) (s : State) : Host.Outcome State Fault Refusal := onEnc (.eGrp b) s (effEGrp b)

/-- The effect of E.GRPZ (40_encoder R135). -/
def effEGrpz (e : Enc) : Enc :=
  let f := { e.pop with grp := e.grp.put 3 0 }
  { f.putChar Config.chZ with n := 0 }

/-- E.GRPZ (40_encoder R135). -/
def execEGrpz (s : State) : Host.Outcome State Fault Refusal := onEnc .eGrpz s effEGrpz

/-- The effect of E.ENDP (40_encoder R136). -/
def effEEndp (e : Enc) : Enc :=
  let f := e.putChars ((chars (e.grp.word e.n)).take (e.n.val + 1))
  { f.emit Config.trailer with n := 0, phase := .done }

/-- E.ENDP (40_encoder R136). -/
def execEEndp (s : State) : Host.Outcome State Fault Refusal := onEnc .eEndp s effEEndp

/-- The effect of E.END0 (40_encoder R137). -/
def effEEnd0 (e : Enc) : Enc :=
  { e.emit Config.trailer with phase := .done }

/-- E.END0 (40_encoder R137). -/
def execEEnd0 (s : State) : Host.Outcome State Fault Refusal := onEnc .eEnd0 s effEEnd0

end Sys2Proof.Machine
end

