-- ==== Sys2Proof/Machine/Dispatch.lean ====
section
/-! DEFINITION. One arm per operation of spec/opcode_table.json. -/

namespace Sys2Proof.Machine

def exec (i : Instr) (s : State) : Host.Outcome State Fault Refusal :=
  match i with
  | .eHdr => Sys2Proof.Machine.execEHdr s
  | .eBuf b => Sys2Proof.Machine.execEBuf b s
  | .eGrp b => Sys2Proof.Machine.execEGrp b s
  | .eGrpz => Sys2Proof.Machine.execEGrpz s
  | .eEndp => Sys2Proof.Machine.execEEndp s
  | .eEnd0 => Sys2Proof.Machine.execEEnd0 s
  | .dSkip c => Sys2Proof.Machine.execDSkip c s
  | .dLt => Sys2Proof.Machine.execDLt s
  | .dEofs => Sys2Proof.Machine.execDEofs s
  | .dHdr => Sys2Proof.Machine.execDHdr s
  | .dLtmiss t => Sys2Proof.Machine.execDLtmiss t s
  | .dTilde => Sys2Proof.Machine.execDTilde s
  | .dWs c => Sys2Proof.Machine.execDWs c s
  | .dZ => Sys2Proof.Machine.execDZ s
  | .dZerr => Sys2Proof.Machine.execDZerr s
  | .dDigit c => Sys2Proof.Machine.execDDigit c s
  | .dBad c => Sys2Proof.Machine.execDBad c s
  | .dEofp => Sys2Proof.Machine.execDEofp s
  | .dTrailer => Sys2Proof.Machine.execDTrailer s
  | .dTildebad t => Sys2Proof.Machine.execDTildebad t s

end Sys2Proof.Machine
end

