-- ==== Sys2Proof/Machine/Schedule.lean ====
section
/-! DEFINITION. What one step of the whole block does: the next move of the list in State, or, when the list is empty, the
first activity that can make progress (20_memory R66, R77; 70_reset R234, R243; log entries 1, 2, 3). -/

namespace Sys2Proof.Machine

/-- An agent's turn. In reset it takes its reset values (70_reset R230). Otherwise it takes the one operation it has enabled;
an operation that pops waits while emitted bytes are still to be presented (20_memory R66). With no token, or in a terminal
state, nothing happens (70_reset R234; 40_encoder R138; 41_decoder R176). -/
def takeTurn (a : Agent) (s : State) : Host.Outcome State Fault Refusal :=
  if s.inReset a then .next (s.takeReset a)
  else
    match s.select a with
    | .op i => if i.pops && s.backlog a then .next s else exec i s
    | .idle _ => .next s

/-- A turn of an agent's sink port: in reset the agent takes its reset values, otherwise the next byte is presented
(20_memory R66; 70_reset R230). -/
def takePort (a : Agent) (s : State) : State :=
  if s.inReset a then s.takeReset a else s.present a

/-- One move. The host's move `reopen` exists only while the agent is in reset (20_memory R62; log entry 2). -/
def runMove (m : Move) (s : State) : Host.Outcome State Fault Refusal :=
  match m with
  | .turn a => takeTurn a s
  | .port a => .next (takePort a s)
  | .setReset a level => .next (s.setReset a level)
  | .offer a b => .next (s.onSource a fun src => src.offer b)
  | .close a => .next (s.onSource a Source.close)
  | .reopen a => .next (if s.inReset a then s.onSource a Source.reopen else s)

/-- Whether a turn of the agent would run an operation. -/
def canRun (s : State) (a : Agent) : Bool :=
  !s.inReset a &&
    match s.select a with
    | .op i => !(i.pops && s.backlog a)
    | .idle _ => false

/-- Whether a turn of the agent's port would present a byte. -/
def canPresent (s : State) (a : Agent) : Bool := !s.inReset a && s.backlog a

/-- The move taken when the list gives none (log entry 1): a port with bytes waiting, else an agent that can run. -/
def defaultMove (s : State) : Option Move :=
  if canPresent s .enc then some (.port .enc)
  else if canPresent s .dec then some (.port .dec)
  else if canRun s .enc then some (.turn .enc)
  else if canRun s .dec then some (.turn .dec)
  else none

/-- The next move of the block; with none listed and nothing able to run, the block waits (70_reset R234). -/
def runNext (s : State) : Host.Outcome State Fault Refusal :=
  match s.moves with
  | m :: ms => runMove m { s with moves := ms }
  | [] =>
    match defaultMove s with
    | some m => runMove m s
    | none => .next s

end Sys2Proof.Machine
end

