-- ==== Sys2Proof/Machine/Step.lean ====
section
/-! DEFINITION. One step of the block, and the state in which its very next step runs a given token's operation. -/

namespace Sys2Proof.Machine

/-- One step: the next move (Machine/Schedule.lean). -/
def step (s : State) : Host.Outcome State Fault Refusal := runNext s

/-- `s` with the token of a table word at the head of the source of the agent that `tableSelector` names, that agent's
selecting registers set, and its turn next; a word that is no token changes nothing (log entry 9). -/
def State.withFetchWord (s : State) (nbits w : Nat) : State :=
  match tableToken nbits w with
  | none => s
  | some t => s.place (tableSelector t) (Token.ofBits t)

end Sys2Proof.Machine
end

