-- ==== Sys2Proof/Safety.lean ====
section
/-! DEFINITION. The terms in which claims speak: how a run ended, the closed forms of the spec's arithmetic, what the encoder
writes and the decoder reads as functions of a whole source (40_encoder R139; 41_decoder R177), and the invariants of the
two agents (10_state R52). Nothing here is used by `step`. -/

namespace Sys2Proof.Machine

/-! How a run ended (70_reset R238; 60_exceptions R206) -/

/-- Every byte the agent emitted has been presented on its port (70_reset R238). -/
def State.drained (s : State) (a : Agent) : Prop := (s.sink a).bytes.length ≤ (s.sink a).sent

/-- ENC's run is over (70_reset R238). -/
def encRunOver (s : State) : Prop := s.enc.phase = .done ∧ s.drained .enc

/-- DEC's run is over, whichever way it ended (70_reset R238). -/
def decRunOver (s : State) : Prop := (s.dec.state = .done ∨ s.dec.state = .err) ∧ s.drained .dec

/-- DEC's run ended well (60_exceptions R206). -/
def decSucceeded (s : State) : Prop := s.dec.state = .done ∧ s.drained .dec

/-- DEC's run ended in a fault; never to be counted as a success (60_exceptions R206). -/
def decFaulted (s : State) : Prop := s.dec.state = .err

/-- An agent that waits for its host: it has no token to examine and needs one (70_reset R234). -/
def waits (s : State) (a : Agent) : Prop := s.select a = .idle .noToken

/-! Closed forms -/

/-- The number four bytes pack to, as a sum (00_scope R13). -/
def packSum (b0 b1 b2 b3 : Byte) : Nat := b0.toNat * 2 ^ 24 + b1.toNat * 2 ^ 16 + b2.toNat * 2 ^ 8 + b3.toNat

/-- The four bytes of a number below 2^32, most significant first (00_scope R13). -/
def bytesOf (v : Nat) : List Byte :=
  [BitVec.ofNat 8 (v / 2 ^ 24), BitVec.ofNat 8 (v / 2 ^ 16), BitVec.ofNat 8 (v / 2 ^ 8), BitVec.ofNat 8 v]

/-- The five digit characters of a number below 2^32: character i is `(v / 85^(4-i)) mod 85 + 33` (00_scope R14, R16). -/
def digitChars (v : Nat) : List Byte :=
  [BitVec.ofNat 8 (v / 85 ^ 4 % 85 + 33), BitVec.ofNat 8 (v / 85 ^ 3 % 85 + 33), BitVec.ofNat 8 (v / 85 ^ 2 % 85 + 33),
   BitVec.ofNat 8 (v / 85 % 85 + 33), BitVec.ofNat 8 (v % 85 + 33)]

/-- The sum of five digit values by weight, not reduced (00_scope R15). -/
def digitSum (d : Digits) : Nat :=
  d.g0.val * 85 ^ 4 + d.g1.val * 85 ^ 3 + d.g2.val * 85 ^ 2 + d.g3.val * 85 + d.g4.val

/-- The digit buffer with the positions from `k` on at 84 (41_decoder R161). -/
def padded (d : Digits) (k : Nat) : Digits :=
  ⟨if 0 < k then d.g0 else 84, if 1 < k then d.g1 else 84, if 2 < k then d.g2 else 84, if 3 < k then d.g3 else 84,
   if 4 < k then d.g4 else 84⟩

/-- The number a partial group of `n` bytes packs to, the missing positions zero (30_encoding R95). -/
def partialSum (g : Group) (n : Nat) : Nat :=
  packSum g.b0 (if 1 < n then g.b1 else 0) (if 2 < n then g.b2 else 0) 0

/-- The characters as they reach the sink when `col` characters already stand on the line: a line feed before a character
whenever 75 stand there (40_encoder R131). -/
def wrapFrom : Nat → List Byte → List Byte
  | _, [] => []
  | col, c :: cs => if 75 ≤ col then 10 :: c :: wrapFrom 1 cs else c :: wrapFrom (col + 1) cs

/-- The characters on the line after `m` more, starting from `col` (40_encoder R131). -/
def colFrom : Nat → Nat → Nat
  | col, 0 => col
  | col, m + 1 => if 75 ≤ col then colFrom 1 m else colFrom (col + 1) m

/-! The encoder as one function (40_encoder R139) -/

/-- The payload characters of a whole source, no line breaks (40_encoder R139: `P`). -/
def payload : List Byte → List Byte
  | b0 :: b1 :: b2 :: b3 :: rest =>
    (if packSum b0 b1 b2 b3 = 0 then [122] else digitChars (packSum b0 b1 b2 b3)) ++ payload rest
  | [b0, b1, b2] => (digitChars (packSum b0 b1 b2 0)).take 4
  | [b0, b1] => (digitChars (packSum b0 b1 0 0)).take 3
  | [b0] => (digitChars (packSum b0 0 0 0)).take 2
  | [] => []

/-- The payload with its line breaks: a line feed before character `i` exactly when `i` is 73, 148, 223, ...
(40_encoder R139). -/
def layout (p : List Byte) : List Byte :=
  p.zipIdx.flatMap fun x => if 73 ≤ x.2 ∧ (x.2 - 73) % 75 = 0 then [10, x.1] else [x.1]

/-- `EncodeAll(B)` (40_encoder R139). -/
def encodeAll (bytes : List Byte) : List Byte := [60, 126] ++ layout (payload bytes) ++ [126, 62]

/-- The line counter after the header and `m` payload characters: 2 + m on the first line, then 1 to 75
(40_encoder R131, R139). -/
def colAfter (m : Nat) : Nat := if m ≤ 73 then m + 2 else (m - 74) % 75 + 1

/-! The decoder as one function (41_decoder R177) -/

/-- What a run of DEC gives: the sink, the terminal state, the error, the number of source bytes popped. -/
structure DecodeResult where
  out    : List Byte
  state  : DState
  err    : DErr
  popped : Nat
deriving DecidableEq, Repr

/-- `Fold` of a list of digits, most significant first, modulo 2^32 (00_scope R15). -/
def foldList (ds : List Digit) : Nat := ds.foldl (fun w g => (w * 85 + g.val) % 2 ^ 32) 0

/-- The bytes a flush of the digits held writes (41_decoder R177: `flush`). -/
def flushBytes (ds : List Digit) : List Byte :=
  if 0 < ds.length ∧ ds.length < 5 then (bytesOf (foldList (ds ++ List.replicate (5 - ds.length) 84))).take (ds.length - 1)
  else []

/-- The loop of `DecodeAll` (41_decoder R177) on what is left of the source: bytes out, digits held, bytes popped so far. -/
def decodePayload : List Byte → List Byte → List Digit → Nat → DecodeResult
  | [], out, ds, i => ⟨out ++ flushBytes ds, .done, .none, i⟩
  | c :: rest, out, ds, i =>
    if c = 126 then
      if rest.head? = some 62 then ⟨out ++ flushBytes ds, .done, .none, i + 2⟩
      else ⟨out, .err, .malformedDigit, i + 1⟩
    else if c = 9 ∨ c = 10 ∨ c = 13 ∨ c = 32 then decodePayload rest out ds (i + 1)
    else if c = 122 then
      if ds = [] then decodePayload rest (out ++ [0, 0, 0, 0]) [] (i + 1)
      else ⟨out, .err, .unexpectedShorthand, i + 1⟩
    else if 33 ≤ c.toNat ∧ c.toNat ≤ 117 then
      if ds.length = 4 then decodePayload rest (out ++ bytesOf (foldList (ds ++ [val c]))) [] (i + 1)
      else decodePayload rest out (ds ++ [val c]) (i + 1)
    else ⟨out, .err, .malformedDigit, i + 1⟩

/-- The header search of `DecodeAll` (41_decoder R177) on what is left of the source. -/
def decodeNoise : List Byte → Nat → DecodeResult
  | [], i => ⟨[], .done, .none, i⟩
  | c :: rest, i =>
    if c = 60 ∧ rest.head? = some 126 then decodePayload rest.tail [] [] (i + 2) else decodeNoise rest (i + 1)

/-- `DecodeAll(T)` (41_decoder R177). -/
def decodeAll (text : List Byte) : DecodeResult := decodeNoise text 0

/-! Invariants -/

/-- ENC is at its reset values (10_state R51) and has popped nothing. -/
structure Enc.AtReset (e : Enc) : Prop where
  phase : e.phase = .hdr
  n     : e.n = 0
  col   : e.col = 0
  grp   : e.grp = ⟨0, 0, 0, 0⟩
  sink  : e.sink = ⟨[], 0⟩
  pos   : e.src.pos = 0

/-- DEC is at its reset values (10_state R51) and has popped nothing. -/
structure Dec.AtReset (d : Dec) : Prop where
  state : d.state = .seek
  k     : d.k = 0
  dig   : d.dig = ⟨0, 0, 0, 0, 0⟩
  err   : d.err = .none
  sink  : d.sink = ⟨[], 0⟩
  pos   : d.src.pos = 0

/-- ENC between operations: 10_state R52 items 2 and 3 (item 1 is `e_n`'s type), the bounds of its streams (20_memory R60,
R66), and that in reset it stands at its reset values (70_reset R230; that it does so at once, at read position 0, is log entry
5). -/
structure Enc.Inv (e : Enc) : Prop where
  col_le   : e.col.toNat ≤ 75
  col_zero : e.col = 0 → e.phase = .hdr
  hdr      : e.phase = .hdr → e.n = 0 ∧ e.col = 0 ∧ e.sink.bytes = []
  pos_le   : e.src.pos ≤ e.src.bytes.length
  sent_le  : e.sink.sent ≤ e.sink.bytes.length
  reset    : e.rst = true → e.AtReset

/-- DEC between operations: 10_state R52 items 5, 6 and 8 (items 4 and 7 are the types of `d_k` and `d_dig`), the bounds of
its streams, and that in reset it stands at its reset values (70_reset R230; log entry 5). -/
structure Dec.Inv (d : Dec) : Prop where
  seeking : d.state = .seek ∨ d.state = .lt → d.k = 0 ∧ d.err = .none ∧ d.sink.bytes = []
  err_iff : d.err ≠ .none ↔ d.state = .err
  whole   : d.state ≠ .done → 4 ∣ d.sink.bytes.length
  pos_le  : d.src.pos ≤ d.src.bytes.length
  sent_le : d.sink.sent ≤ d.sink.bytes.length
  reset   : d.rst = true → d.AtReset

/-- The invariant of the block (10_state R52). -/
def State.Inv (s : State) : Prop := s.enc.Inv ∧ s.dec.Inv

/-- The bytes ENC has popped. -/
def Enc.popped (e : Enc) : List Byte := e.src.bytes.take e.src.pos

/-- The first `n` bytes of the group buffer. -/
def Enc.buffered (e : Enc) : List Byte := [e.grp.b0, e.grp.b1, e.grp.b2, e.grp.b3].take e.n.val

/-- What ENC has written is what `EncodeAll` prescribes for the bytes popped so far (40_encoder R139; 20_memory R76 (a)): in
`E_BODY` the header and the laid-out characters of the full groups, the rest of the bytes standing in the group buffer; in
`E_DONE` all of `EncodeAll` of the whole source, which is used up (20_memory R73). -/
structure Enc.Tracks (e : Enc) : Prop where
  hdr  : e.phase = .hdr → e.src.pos = 0
  body : e.phase = .body → ∃ full : List Byte, 4 ∣ full.length ∧ e.popped = full ++ e.buffered
      ∧ e.sink.bytes = [60, 126] ++ layout (payload full) ∧ e.col.toNat = colAfter (payload full).length
  done : e.phase = .done → e.sink.bytes = encodeAll e.src.bytes ∧ e.src.pos = e.src.bytes.length ∧ e.src.closed = true

/-- The digits DEC holds. -/
def Dec.held (d : Dec) : List Digit := d.dig.toList.take d.k.val

/-- What `DecodeAll` still has to do from where DEC stands, `rest` being what is left of the source (41_decoder R177). -/
def Dec.resume (d : Dec) (rest : List Byte) : DecodeResult :=
  match d.state with
  | .seek => decodeNoise rest d.src.pos
  | .lt =>
    if rest.head? = some 126 then decodePayload rest.tail [] [] (d.src.pos + 1) else decodeNoise rest d.src.pos
  | .pay => decodePayload rest d.sink.bytes d.held d.src.pos
  | .tilde =>
    if rest.head? = some 62 then ⟨d.sink.bytes ++ flushBytes d.held, .done, .none, d.src.pos + 1⟩
    else ⟨d.sink.bytes, .err, .malformedDigit, d.src.pos⟩
  | .done => ⟨d.sink.bytes, .done, .none, d.src.pos⟩
  | .err => ⟨d.sink.bytes, .err, d.err, d.src.pos⟩

/-- DEC is on the way to what `DecodeAll` gives for its source, whatever bytes the host still presents (none, once it has
signalled `END`) (41_decoder R177). -/
def Dec.Tracks (d : Dec) : Prop :=
  ∀ more : List Byte, (d.src.closed = true → more = []) →
    decodeAll (d.src.bytes ++ more) = d.resume (d.src.bytes.drop d.src.pos ++ more)

/-- The finished lines of a text, by length, and the length of the line in progress: lines end at a line feed, byte 10. -/
def lineScan (text : List Byte) : List Nat × Nat :=
  text.foldl (fun a c => if c = 10 then (a.1 ++ [a.2], 0) else (a.1, a.2 + 1)) ([], 0)

/-- The lines ENC writes (40_encoder R140 (a); 10_state R24): with the trailer taken off, every finished line has 75
characters, and the line in progress has `e_col`, at most 75. -/
def Enc.LinesFit (e : Enc) : Prop :=
  ∃ text, e.sink.bytes = text ++ (if e.phase = .done then [126, 62] else [])
    ∧ (∀ m ∈ (lineScan text).1, m = 75) ∧ (lineScan text).2 = e.col.toNat ∧ e.col.toNat ≤ 75

/-- A byte ENC may write between header and trailer (40_encoder R140 (c)): a line feed, a digit character, or `z`. -/
def payloadByte (c : Byte) : Prop := c = 10 ∨ (33 ≤ c.toNat ∧ c.toNat ≤ 117) ∨ c = 122

/-- The shape of ENC's sink (40_encoder R140 (b), (c); 20_memory R74): nothing, then the header and payload bytes, then
those and the trailer. -/
structure Enc.Shaped (e : Enc) : Prop where
  hdr  : e.phase = .hdr → e.sink.bytes = []
  body : e.phase = .body → ∃ mid, e.sink.bytes = [60, 126] ++ mid ∧ ∀ c ∈ mid, payloadByte c
  done : e.phase = .done → ∃ mid, e.sink.bytes = [60, 126] ++ mid ++ [126, 62] ∧ ∀ c ∈ mid, payloadByte c

/-- The operations ENC still has to take when its source is closed: L + 2 from reset (40_encoder R139; 70_reset R235). -/
def Enc.opsLeft (e : Enc) : Nat :=
  match e.phase with
  | .hdr => e.src.bytes.length - e.src.pos + 2
  | .body => e.src.bytes.length - e.src.pos + 1
  | .done => 0

/-- A bound on the operations DEC still has to take when its source is closed: at most 2L + 1 from reset (70_reset R235). -/
def Dec.opsBound (d : Dec) : Nat :=
  match d.state with
  | .seek => 2 * (d.src.bytes.length - d.src.pos) + 1
  | .lt => 2 * (d.src.bytes.length - d.src.pos) + 2
  | .pay => 2 * (d.src.bytes.length - d.src.pos) + 1
  | .tilde => 2 * (d.src.bytes.length - d.src.pos) + 1
  | .done => 0
  | .err => 0

/-- The agent a move belongs to. -/
def Move.agent : Move → Agent
  | .turn a => a
  | .port a => a
  | .setReset a _ => a
  | .offer a _ => a
  | .close a => a
  | .reopen a => a

end Sys2Proof.Machine
end

