-- ==== Sys2Proof/Certificates/Slice0/Obligations.lean ====
section
/-! DEFINITION. The statements for the provers, from the numbered rules of spec/. Each says the clause of the rule it
formalises; a statement's hypotheses have a named witness in Sys2Proof/Tests/Slice0.lean. -/

open Sys2Proof Sys2Proof.Machine

/-! Arithmetic primitives -/

/-- 00_scope R13: `Pack` is big-endian, the first byte most significant, and `Unpack` is its inverse, most significant byte
first. -/
def Obligations.PackIsBigEndian : Prop :=
  (∀ b0 b1 b2 b3 : Byte, (pack b0 b1 b2 b3).toNat = packSum b0 b1 b2 b3 ∧ unpack (pack b0 b1 b2 b3) = [b0, b1, b2, b3])
  ∧ (∀ w : Word, unpack w = [w.extractLsb' 24 8, w.extractLsb' 16 8, w.extractLsb' 8 8, w.extractLsb' 0 8]
      ∧ unpack w = bytesOf w.toNat)
  ∧ (∀ (w : Word) (y0 y1 y2 y3 : Byte), unpack w = [y0, y1, y2, y3] → pack y0 y1 y2 y3 = w)

/-- 00_scope R14: digit i is `(w / 85^(4-i)) mod 85`, the digits sum by weight to `w` exactly, and the first is at most 82. -/
def Obligations.DigitsAreTheBase85Expansion : Prop :=
  ∀ w : Word,
    (digits w).g0.val = w.toNat / 85 ^ 4 % 85 ∧ (digits w).g1.val = w.toNat / 85 ^ 3 % 85
    ∧ (digits w).g2.val = w.toNat / 85 ^ 2 % 85 ∧ (digits w).g3.val = w.toNat / 85 % 85
    ∧ (digits w).g4.val = w.toNat % 85
    ∧ digitSum (digits w) = w.toNat ∧ (digits w).g0.val ≤ 82

/-- 00_scope R15: `Fold` is the sum by weight modulo 2^32, and `Fold(Digits(w)) = w` with no reduction taking place. -/
def Obligations.FoldIsTheSumModulo : Prop :=
  (∀ d : Digits, (fold d).toNat = digitSum d % 2 ^ 32)
  ∧ ∀ w : Word, fold (digits w) = w ∧ digitSum (digits w) < 2 ^ 32

/-- 00_scope R16: `Chr(g) = g + 33` maps 0..84 to 33..117 and `Val` maps back. -/
def Obligations.ChrAndValAreInverse : Prop :=
  (∀ g : Digit, (chr g).toNat = g.val + 33 ∧ 33 ≤ (chr g).toNat ∧ (chr g).toNat ≤ 117 ∧ val (chr g) = g)
  ∧ ∀ c : Byte, 33 ≤ c.toNat → c.toNat ≤ 117 → (val c).val = c.toNat - 33 ∧ chr (val c) = c

/-- 30_encoding R98: a partial group of `n` bytes survives truncation to `n + 1` digits and padding with 84. -/
def Obligations.PartialGroupSurvivesTruncation : Prop :=
  ∀ (g : Group) (n : Fin 4) (k : Fin 5), 0 < n.val → k.val = n.val + 1 →
    (unpack (fold ((digits (g.word n)).pad k))).take n.val = [g.b0, g.b1, g.b2, g.b3].take n.val

/-! The operation map -/

/-- 30_encoding R90: bit 8 of a token is `end`, and with it set `data` is ignored; bits 7:0 are the byte; every token is read
back from its bits. -/
def Obligations.TokenFieldsAreAsGiven : Prop :=
  (∀ t : TokenBits, t.getLsbD 8 = true → Token.ofBits t = .eos)
  ∧ (∀ t : TokenBits, t.getLsbD 8 = false → Token.ofBits t = .byte (t.extractLsb' 0 8))
  ∧ ∀ t : Token, Token.ofBits t.toBits = t

/-- 30_encoding R107: decoding the word encoded for a well-formed operation, in any state its row asks for, gives the
operation back, whatever its operand. -/
def Obligations.DecodeGivesBackTheEncodedOperation : Prop :=
  ∀ (i : Instr) (sel : Selector), i.wellFormed = true → i.fits sel = true → decode sel (some (encode i)) = .op i

/-- 10_state R42, R43: what is decoded is a well-formed operation whose row asks for that state and holds that token, and
the token is the one the operation stands for (but for E.HDR, which examines none). -/
def Obligations.DecodedOperationMatchesItsRow : Prop :=
  ∀ (sel : Selector) (t : TokenBits) (i : Instr), decode sel (some t) = .op i →
    i.wellFormed = true ∧ i.fits sel = true ∧ inRanges i.ranges t.toNat = true
    ∧ (i = .eHdr ∨ Token.ofBits t = i.token)

/-- 30_encoding R100: the five classes of a byte in the payload, by their codes; in the other states only one code
matters. -/
def Obligations.CharacterClassesAreAsListed : Prop :=
  ∀ c : Byte,
    (classify c = .tilde ↔ c.toNat = 126)
    ∧ (classify c = .ws ↔ c.toNat = 9 ∨ c.toNat = 10 ∨ c.toNat = 13 ∨ c.toNat = 32)
    ∧ (classify c = .z ↔ c.toNat = 122)
    ∧ (classify c = .digit ↔ 33 ≤ c.toNat ∧ c.toNat ≤ 117)
    ∧ (classify c = .other ↔ c.toNat ≤ 8 ∨ c.toNat = 11 ∨ c.toNat = 12 ∨ (14 ≤ c.toNat ∧ c.toNat ≤ 31)
        ∨ (118 ≤ c.toNat ∧ c.toNat ≤ 121) ∨ (123 ≤ c.toNat ∧ c.toNat ≤ 125) ∨ 127 ≤ c.toNat)
    ∧ (∀ k, decode (.dec .seek k) (some (Token.toBits (.byte c))) = .op (if c.toNat = 60 then .dLt else .dSkip c))
    ∧ (∀ k, decode (.dec .lt k) (some (Token.toBits (.byte c))) = .op (if c.toNat = 126 then .dHdr else .dLtmiss (.byte c)))
    ∧ (∀ k, decode (.dec .tilde k) (some (Token.toBits (.byte c)))
        = .op (if c.toNat = 62 then .dTrailer else .dTildebad (.byte c)))

/-- A few words of the table, bit by bit (opcode_table.json). -/
def Obligations.SampleWordsDecode : Prop :=
  decode (.enc .body 0 0 0 0) (some 0b001001101#9) = .op (.eBuf 0x4D)
  ∧ decode (.enc .body 3 0 0 0) (some 0b000000000#9) = .op .eGrpz
  ∧ decode (.enc .body 2 0 0 0) (some 0b100000000#9) = .op .eEndp
  ∧ decode (.dec .seek 0) (some 0b000111100#9) = .op .dLt
  ∧ decode (.dec .pay 3) (some 0b001111010#9) = .op .dZerr
  ∧ decode (.dec .tilde 1) (some 0b000111110#9) = .op .dTrailer
  ∧ decode (.dec .pay 0) (some 0b001110101#9) = .op (.dDigit 117)

/-- 30_encoding R102, R103: an operation is enabled, by the tables of 10_state, exactly where the decoder selects it. -/
def Obligations.EnabledExactlyWhereDecoded : Prop :=
  ∀ (s : State) (i : Instr), enabled i s = true ↔ s.select i.agent = .op i

/-- 70_reset R234 (derived there from 10_state R42, R43): an agent that has a token, or ENC in `E_HDR`, has exactly one
enabled operation outside its terminal states. -/
def Obligations.ExactlyOneOperationEnabled : Prop :=
  (∀ s : State, (s.enc.phase = .hdr ∨ (s.enc.phase = .body ∧ s.enc.src.peek.isSome = true)) →
      ∃! i : Instr, i.agent = .enc ∧ enabled i s = true)
  ∧ (∀ s : State, s.dec.state ≠ .done → s.dec.state ≠ .err → s.dec.src.peek.isSome = true →
      ∃! i : Instr, i.agent = .dec ∧ enabled i s = true)

/-- 40_encoder R138, 41_decoder R176: in a terminal state no operation of the agent is enabled. That exec, applied to one all
the same, answers the fault `notEnabled` is the model's choice (log entry 7), not the rules'. -/
def Obligations.NoOperationInTerminalStates : Prop :=
  (∀ (s : State) (i : Instr), i.agent = .enc → s.enc.phase = .done →
      enabled i s = false ∧ exec i s = .fault (.notEnabled i))
  ∧ (∀ (s : State) (i : Instr), i.agent = .dec → (s.dec.state = .done ∨ s.dec.state = .err) →
      enabled i s = false ∧ exec i s = .fault (.notEnabled i))

/-! The encoder's operations: each completes, with this next state -/

/-- 40_encoder R131: `PutChar` writes a line feed first exactly when 75 characters stand on the line, and leaves 1 to 75. -/
def Obligations.PutCharChecksTheLine : Prop :=
  ∀ (e : Enc) (c : Byte),
    e.putChar c = { e with
      sink := { e.sink with bytes := e.sink.bytes ++ (if 75 ≤ e.col.toNat then [10, c] else [c]) }
      col := BitVec.ofNat 7 (if 75 ≤ e.col.toNat then 1 else e.col.toNat + 1) }
    ∧ 1 ≤ (e.putChar c).col.toNat ∧ (e.putChar c).col.toNat ≤ 75

/-- 40_encoder R132: E.HDR emits 60, 126, sets `e_col` to 2 and the phase to `E_BODY`; it examines no token and is ENC's
operation at reset. -/
def Obligations.HdrEmitsTheHeader : Prop :=
  (∀ s : State, s.enc.phase = .hdr →
    exec .eHdr s = .next { s with enc := { s.enc with
      phase := .body, col := 2, sink := { s.enc.sink with bytes := s.enc.sink.bytes ++ [60, 126] } } })
  ∧ ∀ tok : Option TokenBits, decode State.reset.enc.selector tok = .op .eHdr

/-- 40_encoder R133: E.BUF pops the byte, stores it at `e_grp[e_n]` and adds 1 to `e_n`; nothing is emitted. -/
def Obligations.BufStoresTheByte : Prop :=
  ∀ (s : State) (b : Byte), s.enc.phase = .body → s.enc.src.peek = some (.byte b) → s.enc.n.val < 3 →
    exec (.eBuf b) s = .next { s with enc := { s.enc with
      grp := ⟨if s.enc.n.val = 0 then b else s.enc.grp.b0, if s.enc.n.val = 1 then b else s.enc.grp.b1,
              if s.enc.n.val = 2 then b else s.enc.grp.b2, s.enc.grp.b3⟩
      n := Fin.ofNat 4 (s.enc.n.val + 1)
      src := { s.enc.src with pos := s.enc.src.pos + 1 } } }

/-- 40_encoder R134: E.GRP pops the fourth byte and writes the five digit characters of the packed word, each under the
line check. -/
def Obligations.GrpWritesFiveDigits : Prop :=
  ∀ (s : State) (b : Byte), s.enc.phase = .body → s.enc.src.peek = some (.byte b) → s.enc.n = 3 →
    packSum s.enc.grp.b0 s.enc.grp.b1 s.enc.grp.b2 b ≠ 0 →
    exec (.eGrp b) s = .next { s with enc := { s.enc with
      grp := { s.enc.grp with b3 := b }
      n := 0
      col := BitVec.ofNat 7 (colFrom s.enc.col.toNat 5)
      src := { s.enc.src with pos := s.enc.src.pos + 1 }
      sink := { s.enc.sink with
        bytes := s.enc.sink.bytes ++
          wrapFrom s.enc.col.toNat (digitChars (packSum s.enc.grp.b0 s.enc.grp.b1 s.enc.grp.b2 b)) } } }

/-- 40_encoder R135: E.GRPZ pops the fourth zero byte of a zero group and writes the one character `z` (122) under the line
check. -/
def Obligations.GrpzWritesTheShorthand : Prop :=
  ∀ s : State, s.enc.phase = .body → s.enc.src.peek = some (.byte 0) → s.enc.n = 3 →
    s.enc.grp.b0 = 0 → s.enc.grp.b1 = 0 → s.enc.grp.b2 = 0 →
    exec .eGrpz s = .next { s with enc := { s.enc with
      grp := ⟨0, 0, 0, 0⟩
      n := 0
      col := BitVec.ofNat 7 (colFrom s.enc.col.toNat 1)
      src := { s.enc.src with pos := s.enc.src.pos + 1 }
      sink := { s.enc.sink with bytes := s.enc.sink.bytes ++ (if 75 ≤ s.enc.col.toNat then [10, 122] else [122]) } } }

/-- 40_encoder R136: E.ENDP writes the first `e_n + 1` digit characters of the zero-padded word, then 126, 62 with no line
check; nothing is popped. -/
def Obligations.EndpWritesThePartialGroup : Prop :=
  ∀ s : State, s.enc.phase = .body → s.enc.src.peek = some .eos → s.enc.n ≠ 0 →
    exec .eEndp s = .next { s with enc := { s.enc with
      phase := .done
      n := 0
      col := BitVec.ofNat 7 (colFrom s.enc.col.toNat (s.enc.n.val + 1))
      sink := { s.enc.sink with
        bytes := s.enc.sink.bytes ++
          wrapFrom s.enc.col.toNat ((digitChars (partialSum s.enc.grp s.enc.n.val)).take (s.enc.n.val + 1)) ++ [126, 62] } } }

/-- 40_encoder R137: E.END0 writes 126, 62 with no line check and ends the run; nothing is popped. -/
def Obligations.End0WritesTheTrailer : Prop :=
  ∀ s : State, s.enc.phase = .body → s.enc.src.peek = some .eos → s.enc.n = 0 →
    exec .eEnd0 s = .next { s with enc := { s.enc with
      phase := .done, sink := { s.enc.sink with bytes := s.enc.sink.bytes ++ [126, 62] } } }

/-! The decoder's operations: each completes, with this next state -/

/-- 41_decoder R162 to R166: the five operations of the header search. -/
def Obligations.SeekingOperationsDoThis : Prop :=
  (∀ (s : State) (c : Byte), s.dec.state = .seek → s.dec.src.peek = some (.byte c) → c ≠ 60 →
      exec (.dSkip c) s = .next { s with dec := { s.dec with src := { s.dec.src with pos := s.dec.src.pos + 1 } } })
  ∧ (∀ s : State, s.dec.state = .seek → s.dec.src.peek = some (.byte 60) →
      exec .dLt s = .next { s with dec := { s.dec with
        state := .lt, src := { s.dec.src with pos := s.dec.src.pos + 1 } } })
  ∧ (∀ s : State, s.dec.state = .seek → s.dec.src.peek = some .eos →
      exec .dEofs s = .next { s with dec := { s.dec with state := .done } })
  ∧ (∀ s : State, s.dec.state = .lt → s.dec.src.peek = some (.byte 126) →
      exec .dHdr s = .next { s with dec := { s.dec with
        state := .pay, k := 0, src := { s.dec.src with pos := s.dec.src.pos + 1 } } })
  ∧ (∀ (s : State) (t : Token), s.dec.state = .lt → s.dec.src.peek = some t → t ≠ .byte 126 →
      exec (.dLtmiss t) s = .next { s with dec := { s.dec with state := .seek } })

/-- 41_decoder R167 to R169: D.TILDE, D.WS and D.Z. -/
def Obligations.PayloadOperationsDoThis : Prop :=
  (∀ s : State, s.dec.state = .pay → s.dec.src.peek = some (.byte 126) →
      exec .dTilde s = .next { s with dec := { s.dec with
        state := .tilde, src := { s.dec.src with pos := s.dec.src.pos + 1 } } })
  ∧ (∀ (s : State) (c : Byte), s.dec.state = .pay → s.dec.src.peek = some (.byte c) →
      (c = 9 ∨ c = 10 ∨ c = 13 ∨ c = 32) →
      exec (.dWs c) s = .next { s with dec := { s.dec with src := { s.dec.src with pos := s.dec.src.pos + 1 } } })
  ∧ (∀ s : State, s.dec.state = .pay → s.dec.src.peek = some (.byte 122) → s.dec.k = 0 →
      exec .dZ s = .next { s with dec := { s.dec with
        src := { s.dec.src with pos := s.dec.src.pos + 1 }
        sink := { s.dec.sink with bytes := s.dec.sink.bytes ++ [0, 0, 0, 0] } } })

/-- 41_decoder R170: D.DIGIT stores `c - 33` at `d_dig[d_k]`; the fifth digit emits the four bytes of the sum by weight
modulo 2^32 and clears the count, any other adds 1 to it. -/
def Obligations.DigitBuffersOrDecodes : Prop :=
  ∀ (s : State) (c : Byte), s.dec.state = .pay → s.dec.src.peek = some (.byte c) → 33 ≤ c.toNat → c.toNat ≤ 117 →
    ∃ t : State, exec (.dDigit c) s = .next t
      ∧ t.enc = s.enc ∧ t.moves = s.moves ∧ t.dec.state = .pay ∧ t.dec.err = s.dec.err ∧ t.dec.rst = s.dec.rst
      ∧ t.dec.src = { s.dec.src with pos := s.dec.src.pos + 1 }
      ∧ t.dec.dig.toList = s.dec.dig.toList.set s.dec.k.val (Fin.ofNat 85 (c.toNat - 33))
      ∧ t.dec.sink.sent = s.dec.sink.sent
      ∧ (s.dec.k.val = 4 → t.dec.k = 0
          ∧ t.dec.sink.bytes = s.dec.sink.bytes ++ bytesOf (digitSum t.dec.dig % 2 ^ 32))
      ∧ (s.dec.k.val < 4 → t.dec.k.val = s.dec.k.val + 1 ∧ t.dec.sink.bytes = s.dec.sink.bytes)

/-- 41_decoder R171, R172, R175 and 60_exceptions R204: taking an exception writes `d_err` and `d_state`, nothing else but
the popped character of D.ZERR and D.BAD; nothing is emitted. -/
def Obligations.RaisingOperationsDoThis : Prop :=
  (∀ s : State, s.dec.state = .pay → s.dec.src.peek = some (.byte 122) → s.dec.k ≠ 0 →
      exec .dZerr s = .next { s with dec := { s.dec with
        state := .err, err := .unexpectedShorthand, src := { s.dec.src with pos := s.dec.src.pos + 1 } } })
  ∧ (∀ (s : State) (c : Byte), s.dec.state = .pay → s.dec.src.peek = some (.byte c) →
      (c.toNat ≤ 8 ∨ c.toNat = 11 ∨ c.toNat = 12 ∨ (14 ≤ c.toNat ∧ c.toNat ≤ 31) ∨ (118 ≤ c.toNat ∧ c.toNat ≤ 121)
        ∨ (123 ≤ c.toNat ∧ c.toNat ≤ 125) ∨ 127 ≤ c.toNat) →
      exec (.dBad c) s = .next { s with dec := { s.dec with
        state := .err, err := .malformedDigit, src := { s.dec.src with pos := s.dec.src.pos + 1 } } })
  ∧ (∀ (s : State) (t : Token), s.dec.state = .tilde → s.dec.src.peek = some t → t ≠ .byte 62 →
      exec (.dTildebad t) s = .next { s with dec := { s.dec with state := .err, err := .malformedDigit } })

/-- 41_decoder R161: `Flush` pads with 84, folds modulo 2^32, emits the first `d_k - 1` bytes and clears the count; with no
digit buffered it does nothing. -/
def Obligations.FlushWritesAllButOne : Prop :=
  (∀ d : Dec, d.k.val = 0 → d.flush = d)
  ∧ ∀ d : Dec, 0 < d.k.val →
      d.flush = { d with
        dig := padded d.dig d.k.val
        k := 0
        sink := { d.sink with
        bytes := d.sink.bytes ++
            (bytesOf (digitSum (padded d.dig d.k.val) % 2 ^ 32)).take (d.k.val - 1) } }

/-- 41_decoder R173, R174: D.EOFP and D.TRAILER flush and end the run in success; D.TRAILER pops the `>`. -/
def Obligations.EndsOfPayloadFlush : Prop :=
  (∀ s : State, s.dec.state = .pay → s.dec.src.peek = some .eos →
      exec .dEofp s = .next { s with dec := { s.dec.flush with state := .done } }
      ∧ s.dec.flush.err = s.dec.err ∧ s.dec.flush.src = s.dec.src)
  ∧ (∀ s : State, s.dec.state = .tilde → s.dec.src.peek = some (.byte 62) →
      exec .dTrailer s = .next { s with dec := { s.dec.flush with
        state := .done, src := { s.dec.src with pos := s.dec.src.pos + 1 } } }
      ∧ s.dec.flush.err = s.dec.err)

/-! Frames, over every operation -/

/-- 10_state R20: an operation of one agent reads and writes nothing of the other. -/
def Obligations.OperationsLeaveTheOtherAgentAlone : Prop :=
  ∀ (i : Instr) (s t : State), exec i s = .next t →
    (i.agent = .enc → t.dec = s.dec) ∧ (i.agent = .dec → t.enc = s.enc) ∧ t.moves = s.moves
    ∧ (i.agent = .enc → ∀ d : Dec, exec i { s with dec := d } = .next { t with dec := d })
    ∧ (i.agent = .dec → ∀ e : Enc, exec i { s with enc := e } = .next { t with enc := e })

/-- 20_memory R71 with the column "pops" of 10_state R42, R43: an operation moves its agent's read position by one if it
pops and leaves it otherwise; the source's bytes, its `END` and the reset line are never changed. -/
def Obligations.OperationsPopAtMostOneByte : Prop :=
  ∀ (i : Instr) (s t : State), exec i s = .next t → ∀ a : Agent,
    (t.source a).bytes = (s.source a).bytes ∧ (t.source a).closed = (s.source a).closed
    ∧ (t.source a).pos = (s.source a).pos + (if i.agent = a ∧ i.pops = true then 1 else 0)
    ∧ t.inReset a = s.inReset a
    ∧ (i.agent = a → i.pops = true → (s.source a).pos < (s.source a).bytes.length)

/-- 20_memory R64, R72: an operation only appends to its agent's sink, its bytes contiguous, and presents none; a raising
operation appends none (60_exceptions R204). The bound of seven bytes is E.ENDP's with three bytes pending and a line break
(10_state R49 item 2; 40_encoder R136). -/
def Obligations.OperationsOnlyAppendToTheSink : Prop :=
  ∀ (i : Instr) (s t : State), exec i s = .next t → ∀ a : Agent,
    (t.sink a).sent = (s.sink a).sent
    ∧ ∃ out : List Byte, (t.sink a).bytes = (s.sink a).bytes ++ out ∧ out.length ≤ 7
      ∧ (i.agent ≠ a → out = []) ∧ (t.dec.err ≠ s.dec.err → out = [])

/-- 40_encoder R132 to R137: the registers of ENC that each operation leaves as they are. -/
def Obligations.EncoderRegisterFrame : Prop :=
  ∀ (i : Instr) (s t : State), exec i s = .next t →
    (i = .eHdr → t.enc.n = s.enc.n ∧ t.enc.grp = s.enc.grp)
    ∧ (∀ b, i = .eBuf b → t.enc.phase = s.enc.phase ∧ t.enc.col = s.enc.col ∧ t.enc.sink = s.enc.sink
        ∧ (s.enc.n.val ≠ 0 → t.enc.grp.b0 = s.enc.grp.b0) ∧ (s.enc.n.val ≠ 1 → t.enc.grp.b1 = s.enc.grp.b1)
        ∧ (s.enc.n.val ≠ 2 → t.enc.grp.b2 = s.enc.grp.b2) ∧ t.enc.grp.b3 = s.enc.grp.b3)
    ∧ (((∃ b, i = .eGrp b) ∨ i = .eGrpz) → t.enc.phase = s.enc.phase ∧ t.enc.grp.b0 = s.enc.grp.b0
        ∧ t.enc.grp.b1 = s.enc.grp.b1 ∧ t.enc.grp.b2 = s.enc.grp.b2)
    ∧ (i = .eEndp → t.enc.grp = s.enc.grp)
    ∧ (i = .eEnd0 → t.enc.n = s.enc.n ∧ t.enc.col = s.enc.col ∧ t.enc.grp = s.enc.grp)

/-- 41_decoder R162 to R175: the registers of DEC that each operation leaves as they are. -/
def Obligations.DecoderRegisterFrame : Prop :=
  ∀ (i : Instr) (s t : State), exec i s = .next t →
    (((∃ c, i = .dSkip c) ∨ (∃ c, i = .dWs c) ∨ i = .dZ) →
        t.dec.state = s.dec.state ∧ t.dec.k = s.dec.k ∧ t.dec.dig = s.dec.dig ∧ t.dec.err = s.dec.err)
    ∧ ((i = .dLt ∨ i = .dEofs ∨ (∃ tok, i = .dLtmiss tok) ∨ i = .dTilde) →
        t.dec.k = s.dec.k ∧ t.dec.dig = s.dec.dig ∧ t.dec.err = s.dec.err ∧ t.dec.sink = s.dec.sink)
    ∧ (i = .dHdr → t.dec.dig = s.dec.dig ∧ t.dec.err = s.dec.err ∧ t.dec.sink = s.dec.sink)
    ∧ ((∃ c, i = .dDigit c) → t.dec.state = s.dec.state ∧ t.dec.err = s.dec.err
        ∧ ∀ j : Nat, j ≠ s.dec.k.val → t.dec.dig.toList[j]? = s.dec.dig.toList[j]?)
    ∧ ((i = .dZerr ∨ (∃ c, i = .dBad c) ∨ (∃ tok, i = .dTildebad tok)) →
        t.dec.k = s.dec.k ∧ t.dec.dig = s.dec.dig ∧ t.dec.sink = s.dec.sink)
    ∧ ((i = .dEofp ∨ i = .dTrailer) → t.dec.err = s.dec.err
        ∧ ∀ j : Nat, j < s.dec.k.val → t.dec.dig.toList[j]? = s.dec.dig.toList[j]?)

/-! The step -/

/-- A step whose next move is a turn of an agent that is not in reset runs the operation decoded from its registers and head
token, as exec gives it, on the state with that move taken off the list; exec answers a next state. An operation that pops
waits while emitted bytes are still to be presented (20_memory R66); that one which pops nothing runs at once, bytes waiting or
not, is the model's choice (log entry 3). -/
def Obligations.StepRunsTheDecodedOperation : Prop :=
  ∀ (s : State) (a : Agent) (ms : List Move) (i : Instr),
    s.moves = .turn a :: ms → s.inReset a = false → s.select a = .op i →
    ((i.pops = false ∨ s.backlog a = false) →
        ∃ t, exec i { s with moves := ms } = .next t ∧ step s = .next t)
    ∧ (i.pops = true → s.backlog a = true → step s = .next { s with moves := ms })

/-- 70_reset R234, 20_memory R62, 40_encoder R138, 41_decoder R176: an agent with no token to examine, or in a terminal
state, does nothing on its turn. -/
def Obligations.StepWaitsWithNothingEnabled : Prop :=
  ∀ (s : State) (a : Agent) (ms : List Move) (why : Idle),
    s.moves = .turn a :: ms → s.inReset a = false → s.select a = .idle why →
    step s = .next { s with moves := ms }

/-- The model's choice (log entry 1), from 70_reset R234: with no move listed, a step presents a waiting byte, or runs an
enabled operation, or changes nothing; it changes nothing only when no port has a byte to present and no agent can run. -/
def Obligations.StepWithoutMovesMakesProgress : Prop :=
  ∀ s : State, s.moves = [] →
    (∃ a, s.inReset a = false ∧ s.backlog a = true ∧ step s = .next (s.present a))
    ∨ (∃ a i, s.inReset a = false ∧ s.select a = .op i ∧ step s = exec i s)
    ∨ (step s = .next s ∧ ∀ a, s.inReset a = false →
        s.backlog a = false ∧ ∀ i, s.select a ≠ .op i)

/-- 20_memory R66: a turn of a sink port presents the next byte in emission order, and changes nothing else. -/
def Obligations.PortPresentsTheNextByte : Prop :=
  ∀ (s : State) (ms : List Move),
    (s.moves = .port .enc :: ms → s.enc.rst = false →
      step s = .next { s with moves := ms, enc := { s.enc with sink := { s.enc.sink with
        sent := if s.enc.sink.sent < s.enc.sink.bytes.length then s.enc.sink.sent + 1 else s.enc.sink.sent } } })
    ∧ (s.moves = .port .dec :: ms → s.dec.rst = false →
      step s = .next { s with moves := ms, dec := { s.dec with sink := { s.dec.sink with
        sent := if s.dec.sink.sent < s.dec.sink.bytes.length then s.dec.sink.sent + 1 else s.dec.sink.sent } } })
    ∧ (∀ (a : Agent) (b : Byte), (s.sink a).bytes[(s.sink a).sent]? = some b → outValid s a = true ∧ outData s a = b)

/-- 10_state R51: the registers, the two sinks and the status outputs after reset. -/
def Obligations.ResetStateIsAsStated : Prop :=
  State.reset.enc.phase = .hdr ∧ State.reset.enc.n = 0 ∧ State.reset.enc.col = 0 ∧ State.reset.enc.grp = ⟨0, 0, 0, 0⟩
  ∧ State.reset.dec.state = .seek ∧ State.reset.dec.k = 0 ∧ State.reset.dec.dig = ⟨0, 0, 0, 0, 0⟩
  ∧ State.reset.dec.err = .none
  ∧ State.reset.enc.sink.bytes = [] ∧ State.reset.dec.sink.bytes = []
  ∧ eDone State.reset = false ∧ dDone State.reset = false ∧ dError State.reset = false

/-- 70_reset R230: while an agent's reset line is high it takes the values of 10_state R51 on every turn, whatever it was
doing; the other agent is not touched. The model's choices of log entry 5 are part of it: driving the line high does so at
once, and the bytes not yet popped are what the next run reads. Driving the line low changes the line alone; and while it is
high, and only then, the host may withdraw `END` for another stream, which changes that alone (20_memory R62; log entries 2,
5). -/
def Obligations.ResetLineForcesResetValues : Prop :=
  (∀ (s : State) (ms : List Move),
    (s.moves = .turn .enc :: ms ∨ s.moves = .port .enc :: ms) → s.enc.rst = true →
    ∃ t, step s = .next t ∧ t.enc.AtReset ∧ t.dec = s.dec ∧ t.enc.rst = true)
  ∧ (∀ (s : State) (ms : List Move),
    (s.moves = .turn .dec :: ms ∨ s.moves = .port .dec :: ms) → s.dec.rst = true →
    ∃ t, step s = .next t ∧ t.dec.AtReset ∧ t.enc = s.enc ∧ t.dec.rst = true)
  ∧ (∀ (s : State) (ms : List Move), s.moves = .setReset .enc true :: ms →
    ∃ t, step s = .next t ∧ t.enc.AtReset ∧ t.dec = s.dec ∧ t.enc.rst = true
      ∧ t.enc.src.bytes = s.enc.src.bytes.drop s.enc.src.pos)
  ∧ (∀ (s : State) (ms : List Move), s.moves = .setReset .dec true :: ms →
    ∃ t, step s = .next t ∧ t.dec.AtReset ∧ t.enc = s.enc ∧ t.dec.rst = true
      ∧ t.dec.src.bytes = s.dec.src.bytes.drop s.dec.src.pos)
  ∧ (∀ (s : State) (ms : List Move), s.moves = .setReset .enc false :: ms →
    step s = .next { s with moves := ms, enc := { s.enc with rst := false } })
  ∧ (∀ (s : State) (ms : List Move), s.moves = .setReset .dec false :: ms →
    step s = .next { s with moves := ms, dec := { s.dec with rst := false } })
  ∧ (∀ (s : State) (ms : List Move), s.moves = .reopen .enc :: ms →
    step s = .next { s with moves := ms, enc := { s.enc with
      src := { s.enc.src with closed := if s.enc.rst then false else s.enc.src.closed } } })
  ∧ (∀ (s : State) (ms : List Move), s.moves = .reopen .dec :: ms →
    step s = .next { s with moves := ms, dec := { s.dec with
      src := { s.dec.src with closed := if s.dec.rst then false else s.dec.src.closed } } })

/-- 20_memory R60, R62: presenting a byte or signalling `END` changes nothing the agent could already see: a presented token
stays at the head (the model's moves are those of log entry 2). -/
def Obligations.HostMovesHoldThePresentedToken : Prop :=
  ∀ (s : State) (m : Move) (ms : List Move) (a : Agent) (tok : Token),
    s.moves = m :: ms → ((∃ b, m = .offer a b) ∨ m = .close a ∨ (m = .reopen a ∧ s.inReset a = false)) →
    (s.source a).peek = some tok →
    ∃ t, step s = .next t ∧ (t.source a).peek = some tok ∧ t.sink a = s.sink a ∧ t.select a = s.select a

/-- 20_memory R60, R65: `END`, once presented, is presented again after every step while the agent is out of reset, and no
step pops it. -/
def Obligations.EndOfSourcePersists : Prop :=
  ∀ (s t : State) (a : Agent), step s = .next t → s.inReset a = false → (s.source a).peek = some .eos →
    (t.source a).peek = some .eos

/-- Every step answers a next state. An agent that cannot act waits (70_reset R234; 40_encoder R138; 41_decoder R176). That a
raise, and a step in `D_ERR`, answer a next state and not a fault is the model's choice (log entry 8): 60_exceptions R206 would
hold `D_ERR` as a fault. -/
def Obligations.EveryStepCompletes : Prop :=
  ∀ s : State, ∃ t : State, step s = .next t

/-- 10_state R31, R45: the status outputs, and exactly one of running, done, error holds. -/
def Obligations.StatusOutputsAreExclusive : Prop :=
  ∀ s : State,
    (eDone s = true ↔ s.enc.phase = .done)
    ∧ (dDone s = true ↔ s.dec.state = .done) ∧ (dError s = true ↔ s.dec.state = .err)
    ∧ (dErrCode s = 0 ↔ s.dec.err = .none) ∧ (dErrCode s = 1 ↔ s.dec.err = .malformedDigit)
    ∧ (dErrCode s = 2 ↔ s.dec.err = .unexpectedShorthand)
    ∧ ((dRunning s = true ∧ dDone s = false ∧ dError s = false)
        ∨ (dRunning s = false ∧ dDone s = true ∧ dError s = false)
        ∨ (dRunning s = false ∧ dDone s = false ∧ dError s = true))

/-- For every table word the decoder reads, the very next step of the state made by `withFetchWord` is exec of that
operation, and it completes (log entry 9). -/
def Obligations.FetchWordRunsTheDecodedOperation : Prop :=
  ∀ (s : State) (nbits w : Nat) (i : Instr), decodeTableWord nbits w = some i →
    ∃ t, step (s.withFetchWord nbits w) = .next t
      ∧ exec i { s.withFetchWord nbits w with moves := s.moves } = .next t

/-! Whole-machine rules -/

/-- 10_state R44: `d_err` changes only when DEC raises, from `ERR_NONE` and into `D_ERR`, or when DEC takes its reset, its reset
line high (70_reset R230; that the read position is then 0 is log entry 5). -/
def Obligations.ErrorCauseIsSetOnceAndKept : Prop :=
  ∀ s t : State, s.dec.Inv → step s = .next t → t.dec.err ≠ s.dec.err →
    (s.dec.err = .none ∧ t.dec.state = .err ∧ t.dec.sink = s.dec.sink ∧ t.dec.k = s.dec.k ∧ t.dec.dig = s.dec.dig)
    ∨ (t.dec.AtReset ∧ t.dec.rst = true)

/-- 40_encoder R138, 41_decoder R176: only reset leaves a terminal state; until then the agent's registers, read position and
emitted bytes stand still. Reset means that the agent's reset line is high and it stands at its reset values (70_reset R230;
that the read position is then 0 is log entry 5). -/
def Obligations.OnlyResetLeavesATerminalState : Prop :=
  (∀ s t : State, step s = .next t → s.enc.phase = .done →
    (t.enc.phase = .done ∧ t.enc.n = s.enc.n ∧ t.enc.col = s.enc.col ∧ t.enc.grp = s.enc.grp
      ∧ t.enc.src.pos = s.enc.src.pos ∧ t.enc.sink.bytes = s.enc.sink.bytes)
    ∨ (t.enc.AtReset ∧ t.enc.rst = true))
  ∧ (∀ s t : State, step s = .next t → (s.dec.state = .done ∨ s.dec.state = .err) →
    (t.dec.state = s.dec.state ∧ t.dec.k = s.dec.k ∧ t.dec.dig = s.dec.dig ∧ t.dec.err = s.dec.err
      ∧ t.dec.src.pos = s.dec.src.pos ∧ t.dec.sink.bytes = s.dec.sink.bytes)
    ∨ (t.dec.AtReset ∧ t.dec.rst = true))

/-- 20_memory R63, R64: from step to step a sink only grows, and what was presented stays presented, until the agent takes
its reset, its reset line high (70_reset R230; that the read position is then 0 is log entry 5). -/
def Obligations.SinksOnlyGrowUntilReset : Prop :=
  ∀ s t : State, step s = .next t →
    ((∃ out, t.enc.sink.bytes = s.enc.sink.bytes ++ out ∧ s.enc.sink.sent ≤ t.enc.sink.sent)
      ∨ (t.enc.AtReset ∧ t.enc.rst = true))
    ∧ ((∃ out, t.dec.sink.bytes = s.dec.sink.bytes ++ out ∧ s.dec.sink.sent ≤ t.dec.sink.sent)
      ∨ (t.dec.AtReset ∧ t.dec.rst = true))

/-- 70_reset R235: every operation of ENC takes exactly one off the operations left (L + 2 at reset); every operation of DEC
lowers a bound that is 2L + 1 at reset. -/
def Obligations.OperationsCountDown : Prop :=
  ∀ (i : Instr) (s t : State), exec i s = .next t → s.enc.src.pos ≤ s.enc.src.bytes.length →
    s.dec.src.pos ≤ s.dec.src.bytes.length →
    (i.agent = .enc → t.enc.opsLeft + 1 = s.enc.opsLeft) ∧ (i.agent = .dec → t.dec.opsBound < s.dec.opsBound)

/-- 20_memory R73: where each ending operation leaves the read position: at the end of the source for those that see `END`;
just behind the character popped for D.TRAILER, D.BAD and D.ZERR; on the look-ahead token for D.TILDEBAD. -/
def Obligations.EndOfRunLeavesTheSourceHere : Prop :=
  ∀ (i : Instr) (s t : State), exec i s = .next t → s.enc.src.pos ≤ s.enc.src.bytes.length →
    s.dec.src.pos ≤ s.dec.src.bytes.length →
    ((i = .eEndp ∨ i = .eEnd0) → t.enc.src.pos = t.enc.src.bytes.length)
    ∧ ((i = .dEofs ∨ i = .dEofp) → t.dec.src.pos = t.dec.src.bytes.length)
    ∧ (i = .dTrailer → t.dec.src.pos = s.dec.src.pos + 1 ∧ t.dec.src.bytes[s.dec.src.pos]? = some 62)
    ∧ (i = .dZerr → t.dec.src.pos = s.dec.src.pos + 1 ∧ t.dec.src.bytes[s.dec.src.pos]? = some 122)
    ∧ (∀ c, i = .dBad c → t.dec.src.pos = s.dec.src.pos + 1 ∧ t.dec.src.bytes[s.dec.src.pos]? = some c)
    ∧ (∀ tok, i = .dTildebad tok → t.dec.src.pos = s.dec.src.pos ∧ t.dec.src.peek = some tok)

/-- 20_memory R77: a move of ENC and a move of DEC can be taken in either order, with the same state after both. -/
def Obligations.AgentsCommute : Prop :=
  ∀ (s : State) (m n : Move) (ms : List Move), m.agent = .enc → n.agent = .dec →
    ∃ t u v : State, step { s with moves := m :: n :: ms } = .next t ∧ step t = .next v
      ∧ step { s with moves := n :: m :: ms } = .next u ∧ step u = .next v

/-- 10_state R20: what a listed move of ENC does to ENC depends on ENC alone, and the same for DEC: two states that agree on
the agent agree on it after the step. -/
def Obligations.AgentsCannotSeeEachOther : Prop :=
  ∀ (s s' t t' : State) (m : Move) (ms ms' : List Move), s.moves = m :: ms → s'.moves = m :: ms' →
    step s = .next t → step s' = .next t' →
    (m.agent = .enc → s.enc = s'.enc → t.enc = t'.enc ∧ t.dec = s.dec ∧ t'.dec = s'.dec)
    ∧ (m.agent = .dec → s.dec = s'.dec → t.dec = t'.dec ∧ t.enc = s.enc ∧ t'.enc = s'.enc)

/-! Invariants -/

/-- 10_state R52: the invariant of the block holds at reset. -/
def Obligations.InvariantHoldsAtReset : Prop := State.reset.Inv

/-- 10_state R52: every step keeps the invariant of the block. Its last field, that an agent whose reset line is high stands at
its reset values with its read position at 0, rests on the model's choice of when reset acts (log entry 5). -/
def Obligations.StepKeepsTheInvariant : Prop :=
  ∀ s t : State, s.Inv → step s = .next t → t.Inv

/-- At reset ENC and DEC are on track, and ENC's sink is well formed. -/
def Obligations.AgentsAreOnTrackAtReset : Prop :=
  State.reset.enc.Tracks ∧ State.reset.dec.Tracks ∧ State.reset.enc.LinesFit ∧ State.reset.enc.Shaped

/-- 40_encoder R139: every step keeps ENC's sink equal to what `EncodeAll` prescribes for the bytes popped so far, and at the
end to `EncodeAll` of the whole source. After a reset the source is what was left of it (log entry 5). -/
def Obligations.StepKeepsTheEncoderOnTrack : Prop :=
  ∀ s t : State, s.Inv → s.enc.Tracks → step s = .next t → t.enc.Tracks

/-- 41_decoder R177: every step keeps DEC on the way to what `DecodeAll` gives for its source, and at the end there. After a reset
the source is what was left of it (log entry 5). -/
def Obligations.StepKeepsTheDecoderOnTrack : Prop :=
  ∀ s t : State, s.Inv → s.dec.Tracks → step s = .next t → t.dec.Tracks

/-- 40_encoder R140 (a), 10_state R24: every step keeps ENC's finished lines at 75 characters and `e_col` equal to the length
of the line in progress, at most 75. -/
def Obligations.StepKeepsLinesWithinTheLimit : Prop :=
  ∀ s t : State, s.Inv → s.enc.LinesFit → step s = .next t → t.enc.LinesFit

/-- 40_encoder R140 (b), (c): every step keeps ENC's sink the header, then payload bytes alone, then, at the end, the
trailer. -/
def Obligations.StepKeepsTheSinkShaped : Prop :=
  ∀ s t : State, s.Inv → s.enc.Shaped → step s = .next t → t.enc.Shaped

/-- 41_decoder R178: a decoder that ran on the whole text of a finished encoder ends in success, has given the encoder's
source back, and has popped all of the text. -/
def Obligations.DecodingWhatWasEncodedGivesTheSource : Prop :=
  ∀ s : State, s.enc.Tracks → s.dec.Tracks → s.enc.phase = .done → s.dec.src.bytes = s.enc.sink.bytes →
    (s.dec.state = .done ∨ s.dec.state = .err) →
    s.dec.state = .done ∧ s.dec.sink.bytes = s.enc.src.bytes ∧ s.dec.src.pos = s.dec.src.bytes.length

/-! The host's moves and the input ports -/

/-- 20_memory R60, R62 and 70_reset R243 (the moves are those of log entry 2): what presenting a byte and signalling `END` do
to a source, and nothing else: the byte goes behind those presented before, and to the head if they are all popped; `END`
follows the last of them. Once the host has signalled `END` it presents no more (log entry 2). -/
def Obligations.HostMovesFeedTheSource : Prop :=
  (∀ (s : State) (b : Byte) (ms : List Move), s.moves = .offer .enc b :: ms →
    step s = .next { s with moves := ms, enc := { s.enc with src := { s.enc.src with
      bytes := if s.enc.src.closed then s.enc.src.bytes else s.enc.src.bytes ++ [b] } } })
  ∧ (∀ (s : State) (b : Byte) (ms : List Move), s.moves = .offer .dec b :: ms →
    step s = .next { s with moves := ms, dec := { s.dec with src := { s.dec.src with
      bytes := if s.dec.src.closed then s.dec.src.bytes else s.dec.src.bytes ++ [b] } } })
  ∧ (∀ (s : State) (ms : List Move), s.moves = .close .enc :: ms →
    step s = .next { s with moves := ms, enc := { s.enc with src := { s.enc.src with closed := true } } })
  ∧ (∀ (s : State) (ms : List Move), s.moves = .close .dec :: ms →
    step s = .next { s with moves := ms, dec := { s.dec with src := { s.dec.src with closed := true } } })
  ∧ (∀ (s : State) (a : Agent) (b : Byte) (ms : List Move), s.moves = .offer a b :: ms →
    (s.source a).closed = false → (s.source a).pos = (s.source a).bytes.length →
    ∃ t, step s = .next t ∧ (t.source a).peek = some (.byte b))
  ∧ (∀ (s : State) (a : Agent) (ms : List Move), s.moves = .close a :: ms →
    (s.source a).bytes.length ≤ (s.source a).pos →
    ∃ t, step s = .next t ∧ (t.source a).peek = some .eos)

/-- 20_memory R60, R62: what an input port shows. `x_in_valid`, `x_in_end` and `x_in_data` are the head token; `x_in_pop` is
never asserted with `x_in_end`, without a token, in a terminal state, while emitted bytes wait (R66; log entry 3), or in reset
(the model's choice, log entry 5); and it says what the agent's next turn does: the read position advances by one if `x_in_pop`
is asserted and stays if it is not. -/
def Obligations.InputPortShowsTheHeadToken : Prop :=
  ∀ (s : State) (a : Agent),
    (inValid s a = true ↔ (s.source a).peek ≠ none)
    ∧ (inEnd s a = true ↔ (s.source a).peek = some .eos)
    ∧ (∀ b, inValid s a = true ∧ inEnd s a = false ∧ inData s a = b ↔ (s.source a).peek = some (.byte b))
    ∧ (inPop s a = true → inValid s a = true ∧ inEnd s a = false ∧ s.inReset a = false ∧ s.backlog a = false
        ∧ ∃ i, s.select a = .op i ∧ i.pops = true)
    ∧ (s.enc.phase = .done → inPop s .enc = false)
    ∧ (s.dec.state = .done ∨ s.dec.state = .err → inPop s .dec = false)
    ∧ (∀ ms t, s.moves = .turn a :: ms → s.inReset a = false → step s = .next t →
        (t.source a).pos = (s.source a).pos + (if inPop s a then 1 else 0))
end

