-- ==== Sys2Proof/Laws/State.lean ====
section
/-! SUPPORT. One lemma per field per named update of an agent, so that no later proof unfolds a record update. -/

namespace Sys2Proof.Machine

/-! `Source` and `Sink` -/

@[simp] theorem Source.pop_bytes (s : Source) : s.pop.bytes = s.bytes := rfl
@[simp] theorem Source.pop_pos (s : Source) : s.pop.pos = s.pos + 1 := rfl
@[simp] theorem Source.pop_closed (s : Source) : s.pop.closed = s.closed := rfl
@[simp] theorem Source.rebase_bytes (s : Source) : s.rebase.bytes = s.bytes.drop s.pos := rfl
@[simp] theorem Source.rebase_pos (s : Source) : s.rebase.pos = 0 := rfl
@[simp] theorem Source.rebase_closed (s : Source) : s.rebase.closed = s.closed := rfl
@[simp] theorem Source.close_bytes (s : Source) : s.close.bytes = s.bytes := rfl
@[simp] theorem Source.close_pos (s : Source) : s.close.pos = s.pos := rfl
@[simp] theorem Source.close_closed (s : Source) : s.close.closed = true := rfl
@[simp] theorem Source.reopen_bytes (s : Source) : s.reopen.bytes = s.bytes := rfl
@[simp] theorem Source.reopen_pos (s : Source) : s.reopen.pos = s.pos := rfl
@[simp] theorem Source.reopen_closed (s : Source) : s.reopen.closed = false := rfl
@[simp] theorem Source.offer_pos (s : Source) (b : Byte) : (s.offer b).pos = s.pos := by
  unfold Source.offer; split <;> rfl
@[simp] theorem Source.offer_closed (s : Source) (b : Byte) : (s.offer b).closed = s.closed := by
  unfold Source.offer; split <;> rfl
theorem Source.offer_bytes (s : Source) (b : Byte) :
    (s.offer b).bytes = if s.closed then s.bytes else s.bytes ++ [b] := by
  unfold Source.offer; split <;> rfl

@[simp] theorem Sink.emit_bytes (s : Sink) (bs : List Byte) : (s.emit bs).bytes = s.bytes ++ bs := rfl
@[simp] theorem Sink.emit_sent (s : Sink) (bs : List Byte) : (s.emit bs).sent = s.sent := rfl
@[simp] theorem Sink.present_bytes (s : Sink) : s.present.bytes = s.bytes := by
  unfold Sink.present; split <;> rfl

/-! `Enc` -/

@[simp] theorem Enc.pop_phase (e : Enc) : e.pop.phase = e.phase := rfl
@[simp] theorem Enc.pop_n (e : Enc) : e.pop.n = e.n := rfl
@[simp] theorem Enc.pop_col (e : Enc) : e.pop.col = e.col := rfl
@[simp] theorem Enc.pop_grp (e : Enc) : e.pop.grp = e.grp := rfl
@[simp] theorem Enc.pop_src (e : Enc) : e.pop.src = e.src.pop := rfl
@[simp] theorem Enc.pop_sink (e : Enc) : e.pop.sink = e.sink := rfl
@[simp] theorem Enc.pop_rst (e : Enc) : e.pop.rst = e.rst := rfl
@[simp] theorem Enc.emit_phase (e : Enc) (bs : List Byte) : (e.emit bs).phase = e.phase := rfl
@[simp] theorem Enc.emit_n (e : Enc) (bs : List Byte) : (e.emit bs).n = e.n := rfl
@[simp] theorem Enc.emit_col (e : Enc) (bs : List Byte) : (e.emit bs).col = e.col := rfl
@[simp] theorem Enc.emit_grp (e : Enc) (bs : List Byte) : (e.emit bs).grp = e.grp := rfl
@[simp] theorem Enc.emit_src (e : Enc) (bs : List Byte) : (e.emit bs).src = e.src := rfl
@[simp] theorem Enc.emit_sink (e : Enc) (bs : List Byte) : (e.emit bs).sink = e.sink.emit bs := rfl
@[simp] theorem Enc.emit_rst (e : Enc) (bs : List Byte) : (e.emit bs).rst = e.rst := rfl

@[simp] theorem Enc.takeReset_phase (e : Enc) : e.takeReset.phase = .hdr := rfl
@[simp] theorem Enc.takeReset_n (e : Enc) : e.takeReset.n = 0 := rfl
@[simp] theorem Enc.takeReset_col (e : Enc) : e.takeReset.col = 0 := rfl
@[simp] theorem Enc.takeReset_grp (e : Enc) : e.takeReset.grp = ⟨0, 0, 0, 0⟩ := rfl
@[simp] theorem Enc.takeReset_src (e : Enc) : e.takeReset.src = e.src.rebase := rfl
@[simp] theorem Enc.takeReset_sink (e : Enc) : e.takeReset.sink = ⟨[], 0⟩ := rfl
@[simp] theorem Enc.takeReset_rst (e : Enc) : e.takeReset.rst = e.rst := rfl

/-- `PutChar` changes the sink's bytes and `e_col` alone (40_encoder R131). -/
theorem Enc.putChar_eq (e : Enc) (c : Byte) :
    e.putChar c =
      if 75 ≤ e.col then { e with sink := { e.sink with bytes := e.sink.bytes ++ [10, c] }, col := 1 }
      else { e with sink := { e.sink with bytes := e.sink.bytes ++ [c] }, col := e.col + 1 } := by
  unfold Enc.putChar Enc.wrapCheck
  split
  · simp [Enc.emit, Sink.emit]
  · rfl

@[simp] theorem Enc.putChar_phase (e : Enc) (c : Byte) : (e.putChar c).phase = e.phase := by
  rw [Enc.putChar_eq]; split <;> rfl
@[simp] theorem Enc.putChar_n (e : Enc) (c : Byte) : (e.putChar c).n = e.n := by
  rw [Enc.putChar_eq]; split <;> rfl
@[simp] theorem Enc.putChar_grp (e : Enc) (c : Byte) : (e.putChar c).grp = e.grp := by
  rw [Enc.putChar_eq]; split <;> rfl
@[simp] theorem Enc.putChar_src (e : Enc) (c : Byte) : (e.putChar c).src = e.src := by
  rw [Enc.putChar_eq]; split <;> rfl
@[simp] theorem Enc.putChar_sent (e : Enc) (c : Byte) : (e.putChar c).sink.sent = e.sink.sent := by
  rw [Enc.putChar_eq]; split <;> rfl
@[simp] theorem Enc.putChar_rst (e : Enc) (c : Byte) : (e.putChar c).rst = e.rst := by
  rw [Enc.putChar_eq]; split <;> rfl

@[simp] theorem Enc.putChars_nil (e : Enc) : e.putChars [] = e := rfl
@[simp] theorem Enc.putChars_cons (e : Enc) (c : Byte) (cs : List Byte) :
    e.putChars (c :: cs) = (e.putChar c).putChars cs := rfl
@[simp] theorem Enc.putChars_phase (e : Enc) (cs : List Byte) : (e.putChars cs).phase = e.phase := by
  induction cs generalizing e with
  | nil => rfl
  | cons c cs ih => simp [ih]
@[simp] theorem Enc.putChars_n (e : Enc) (cs : List Byte) : (e.putChars cs).n = e.n := by
  induction cs generalizing e with
  | nil => rfl
  | cons c cs ih => simp [ih]
@[simp] theorem Enc.putChars_grp (e : Enc) (cs : List Byte) : (e.putChars cs).grp = e.grp := by
  induction cs generalizing e with
  | nil => rfl
  | cons c cs ih => simp [ih]
@[simp] theorem Enc.putChars_src (e : Enc) (cs : List Byte) : (e.putChars cs).src = e.src := by
  induction cs generalizing e with
  | nil => rfl
  | cons c cs ih => simp [ih]
@[simp] theorem Enc.putChars_sent (e : Enc) (cs : List Byte) : (e.putChars cs).sink.sent = e.sink.sent := by
  induction cs generalizing e with
  | nil => rfl
  | cons c cs ih => simp [ih]
@[simp] theorem Enc.putChars_rst (e : Enc) (cs : List Byte) : (e.putChars cs).rst = e.rst := by
  induction cs generalizing e with
  | nil => rfl
  | cons c cs ih => simp [ih]

/-! `Dec` -/

@[simp] theorem Dec.pop_state (d : Dec) : d.pop.state = d.state := rfl
@[simp] theorem Dec.pop_k (d : Dec) : d.pop.k = d.k := rfl
@[simp] theorem Dec.pop_dig (d : Dec) : d.pop.dig = d.dig := rfl
@[simp] theorem Dec.pop_err (d : Dec) : d.pop.err = d.err := rfl
@[simp] theorem Dec.pop_src (d : Dec) : d.pop.src = d.src.pop := rfl
@[simp] theorem Dec.pop_sink (d : Dec) : d.pop.sink = d.sink := rfl
@[simp] theorem Dec.pop_rst (d : Dec) : d.pop.rst = d.rst := rfl
@[simp] theorem Dec.emit_state (d : Dec) (bs : List Byte) : (d.emit bs).state = d.state := rfl
@[simp] theorem Dec.emit_k (d : Dec) (bs : List Byte) : (d.emit bs).k = d.k := rfl
@[simp] theorem Dec.emit_dig (d : Dec) (bs : List Byte) : (d.emit bs).dig = d.dig := rfl
@[simp] theorem Dec.emit_err (d : Dec) (bs : List Byte) : (d.emit bs).err = d.err := rfl
@[simp] theorem Dec.emit_src (d : Dec) (bs : List Byte) : (d.emit bs).src = d.src := rfl
@[simp] theorem Dec.emit_sink (d : Dec) (bs : List Byte) : (d.emit bs).sink = d.sink.emit bs := rfl
@[simp] theorem Dec.emit_rst (d : Dec) (bs : List Byte) : (d.emit bs).rst = d.rst := rfl

/-- `raise` writes `d_err` and `d_state` alone (60_exceptions R204). -/
theorem Dec.raise_eq (d : Dec) (x : Cause) : d.raise x = { d with err := x.code, state := .err } := rfl
@[simp] theorem Dec.raise_state (d : Dec) (x : Cause) : (d.raise x).state = .err := rfl
@[simp] theorem Dec.raise_err (d : Dec) (x : Cause) : (d.raise x).err = x.code := rfl
@[simp] theorem Dec.raise_k (d : Dec) (x : Cause) : (d.raise x).k = d.k := rfl
@[simp] theorem Dec.raise_dig (d : Dec) (x : Cause) : (d.raise x).dig = d.dig := rfl
@[simp] theorem Dec.raise_src (d : Dec) (x : Cause) : (d.raise x).src = d.src := rfl
@[simp] theorem Dec.raise_sink (d : Dec) (x : Cause) : (d.raise x).sink = d.sink := rfl
@[simp] theorem Dec.raise_rst (d : Dec) (x : Cause) : (d.raise x).rst = d.rst := rfl
theorem Cause.code_ne_none (x : Cause) : x.code ≠ .none := by cases x <;> decide

/-- `Flush` by the digit count (41_decoder R161). -/
theorem Dec.flush_eq (d : Dec) :
    d.flush =
      if 0 < d.k.val then
        { d with
          dig := d.dig.pad d.k, k := 0,
          sink := { d.sink with bytes := d.sink.bytes ++ (unpack (fold (d.dig.pad d.k))).take (d.k.val - 1) } }
      else { d with k := 0 } := rfl
@[simp] theorem Dec.flush_k (d : Dec) : d.flush.k = 0 := by unfold Dec.flush; split <;> rfl
@[simp] theorem Dec.flush_state (d : Dec) : d.flush.state = d.state := by unfold Dec.flush; split <;> rfl
@[simp] theorem Dec.flush_err (d : Dec) : d.flush.err = d.err := by unfold Dec.flush; split <;> rfl
@[simp] theorem Dec.flush_src (d : Dec) : d.flush.src = d.src := by unfold Dec.flush; split <;> rfl
@[simp] theorem Dec.flush_rst (d : Dec) : d.flush.rst = d.rst := by unfold Dec.flush; split <;> rfl
@[simp] theorem Dec.flush_sent (d : Dec) : d.flush.sink.sent = d.sink.sent := by unfold Dec.flush; split <;> rfl

@[simp] theorem Dec.takeReset_state (d : Dec) : d.takeReset.state = .seek := rfl
@[simp] theorem Dec.takeReset_k (d : Dec) : d.takeReset.k = 0 := rfl
@[simp] theorem Dec.takeReset_dig (d : Dec) : d.takeReset.dig = ⟨0, 0, 0, 0, 0⟩ := rfl
@[simp] theorem Dec.takeReset_err (d : Dec) : d.takeReset.err = .none := rfl
@[simp] theorem Dec.takeReset_src (d : Dec) : d.takeReset.src = d.src.rebase := rfl
@[simp] theorem Dec.takeReset_sink (d : Dec) : d.takeReset.sink = ⟨[], 0⟩ := rfl
@[simp] theorem Dec.takeReset_rst (d : Dec) : d.takeReset.rst = d.rst := rfl

/-! `State` -/

@[simp] theorem State.onSource_enc_enc (s : State) (f : Source → Source) :
    (s.onSource .enc f).enc = { s.enc with src := f s.enc.src } := rfl
@[simp] theorem State.onSource_enc_dec (s : State) (f : Source → Source) : (s.onSource .enc f).dec = s.dec := rfl
@[simp] theorem State.onSource_dec_enc (s : State) (f : Source → Source) : (s.onSource .dec f).enc = s.enc := rfl
@[simp] theorem State.onSource_dec_dec (s : State) (f : Source → Source) :
    (s.onSource .dec f).dec = { s.dec with src := f s.dec.src } := rfl
@[simp] theorem State.onSource_moves (s : State) (a : Agent) (f : Source → Source) :
    (s.onSource a f).moves = s.moves := by cases a <;> rfl
@[simp] theorem State.takeReset_enc_enc (s : State) : (s.takeReset .enc).enc = s.enc.takeReset := rfl
@[simp] theorem State.takeReset_enc_dec (s : State) : (s.takeReset .enc).dec = s.dec := rfl
@[simp] theorem State.takeReset_dec_enc (s : State) : (s.takeReset .dec).enc = s.enc := rfl
@[simp] theorem State.takeReset_dec_dec (s : State) : (s.takeReset .dec).dec = s.dec.takeReset := rfl
@[simp] theorem State.takeReset_moves (s : State) (a : Agent) : (s.takeReset a).moves = s.moves := by cases a <;> rfl
@[simp] theorem State.present_enc_enc (s : State) :
    (s.present .enc).enc = { s.enc with sink := s.enc.sink.present } := rfl
@[simp] theorem State.present_enc_dec (s : State) : (s.present .enc).dec = s.dec := rfl
@[simp] theorem State.present_dec_enc (s : State) : (s.present .dec).enc = s.enc := rfl
@[simp] theorem State.present_dec_dec (s : State) :
    (s.present .dec).dec = { s.dec with sink := s.dec.sink.present } := rfl
@[simp] theorem State.present_moves (s : State) (a : Agent) : (s.present a).moves = s.moves := by cases a <;> rfl
@[simp] theorem State.setReset_moves (s : State) (a : Agent) (l : Bool) : (s.setReset a l).moves = s.moves := by
  cases a <;> cases l <;> rfl

/-- What driving ENC's reset line does (70_reset R230). -/
theorem State.setReset_enc (s : State) (l : Bool) :
    s.setReset .enc l = { s with enc := if l then { s.enc.takeReset with rst := true } else { s.enc with rst := false } } := by
  cases l <;> rfl

/-- What driving DEC's reset line does (70_reset R230). -/
theorem State.setReset_dec (s : State) (l : Bool) :
    s.setReset .dec l = { s with dec := if l then { s.dec.takeReset with rst := true } else { s.dec with rst := false } } := by
  cases l <;> rfl

/-! One agent's part of the accessors, and that none of them reads the list of moves -/

@[simp] theorem State.inReset_enc (s : State) : s.inReset .enc = s.enc.rst := rfl
@[simp] theorem State.inReset_dec (s : State) : s.inReset .dec = s.dec.rst := rfl
@[simp] theorem State.backlog_enc (s : State) : s.backlog .enc = s.enc.sink.backlog := rfl
@[simp] theorem State.backlog_dec (s : State) : s.backlog .dec = s.dec.sink.backlog := rfl
@[simp] theorem State.source_enc (s : State) : s.source .enc = s.enc.src := rfl
@[simp] theorem State.source_dec (s : State) : s.source .dec = s.dec.src := rfl
@[simp] theorem State.sink_enc (s : State) : s.sink .enc = s.enc.sink := rfl
@[simp] theorem State.sink_dec (s : State) : s.sink .dec = s.dec.sink := rfl
@[simp] theorem State.inReset_moves (s : State) (a : Agent) (ms : List Move) :
    ({ s with moves := ms } : State).inReset a = s.inReset a := by cases a <;> rfl
@[simp] theorem State.backlog_moves (s : State) (a : Agent) (ms : List Move) :
    ({ s with moves := ms } : State).backlog a = s.backlog a := by cases a <;> rfl
@[simp] theorem State.select_moves (s : State) (a : Agent) (ms : List Move) :
    ({ s with moves := ms } : State).select a = s.select a := by cases a <;> rfl
@[simp] theorem enabled_moves (i : Instr) (s : State) (ms : List Move) :
    enabled i { s with moves := ms } = enabled i s := by cases i <;> rfl
@[simp] theorem Token.number_byte (b : Byte) : (Token.byte b).number = b.toNat := rfl
@[simp] theorem Token.number_eos : Token.eos.number = 256 := rfl

end Sys2Proof.Machine
end

