-- ==== Sys2Proof/Laws/Ops.lean ====
section
/-! SUPPORT. One lemma per shared operation that says everything it can do: Peek, the two wrappers of the operations'
meanings, exec, the moves and the step. -/

namespace Sys2Proof.Machine

/-- `Peek` answers `BYTE(b)` exactly when `b` stands at the read position (20_memory R60). -/
theorem Source.peek_eq_byte (s : Source) (b : Byte) : s.peek = some (.byte b) ↔ s.bytes[s.pos]? = some b := by
  unfold Source.peek
  split
  · rename_i c h; simp [h]
  · rename_i h; split <;> simp [h]

/-- `Peek` answers `END` exactly when the source is used up and the host signals `END` (20_memory R60). -/
theorem Source.peek_eq_eos (s : Source) : s.peek = some .eos ↔ s.bytes.length ≤ s.pos ∧ s.closed = true := by
  unfold Source.peek
  split
  · rename_i c h
    have := (List.getElem?_eq_some_iff.mp h).1
    simp; omega
  · rename_i h
    have := List.getElem?_eq_none_iff.mp h
    split <;> simp_all

/-- `Peek` has no answer exactly when the source is used up and `END` is not signalled (20_memory R60). -/
theorem Source.peek_eq_none (s : Source) : s.peek = none ↔ s.bytes.length ≤ s.pos ∧ s.closed = false := by
  unfold Source.peek
  split
  · rename_i c h
    have := (List.getElem?_eq_some_iff.mp h).1
    simp; omega
  · rename_i h
    have := List.getElem?_eq_none_iff.mp h
    split <;> simp_all

/-- A token is read back from its bits (30_encoding R90). -/
@[simp] theorem Token.ofBits_toBits (t : Token) : Token.ofBits t.toBits = t := by
  cases t with
  | eos => rfl
  | byte b =>
    have h' : (b.setWidth 9).setWidth 8 = b := by
      apply BitVec.eq_of_toNat_eq; simp
    simp [Token.toBits, Token.ofBits, h']

/-- Decoding what the source presents is decoding the head token. -/
theorem decodeToken_peekBits (f : Token → Instr) (s : Source) :
    decodeToken f s.peekBits = match s.peek with
      | some t => .op (f t)
      | none => .idle .noToken := by
  unfold Source.peekBits
  cases s.peek <;> simp [decodeToken]

/-- An operation of ENC answers a next state exactly where it is enabled, and then changes ENC alone (10_state R20). -/
theorem onEnc_eq_next (i : Instr) (s t : State) (f : Enc → Enc) :
    onEnc i s f = .next t ↔ enabled i s = true ∧ t = { s with enc := f s.enc } := by
  unfold onEnc
  split
  · rename_i h
    exact ⟨fun g => ⟨h, (Host.Outcome.next.inj g).symm⟩, fun g => congrArg _ g.2.symm⟩
  · rename_i h
    exact ⟨fun g => (by cases g), fun g => absurd g.1 h⟩

/-- An operation of DEC answers a next state exactly where it is enabled, and then changes DEC alone (10_state R20). -/
theorem onDec_eq_next (i : Instr) (s t : State) (f : Dec → Dec) :
    onDec i s f = .next t ↔ enabled i s = true ∧ t = { s with dec := f s.dec } := by
  unfold onDec
  split
  · rename_i h
    exact ⟨fun g => ⟨h, (Host.Outcome.next.inj g).symm⟩, fun g => congrArg _ g.2.symm⟩
  · rename_i h
    exact ⟨fun g => (by cases g), fun g => absurd g.1 h⟩

/-- An enabled operation of ENC completes. -/
theorem onEnc_of_enabled {i : Instr} {s : State} (h : enabled i s = true) (f : Enc → Enc) :
    onEnc i s f = .next { s with enc := f s.enc } := by
  simp [onEnc, h]

/-- An enabled operation of DEC completes. -/
theorem onDec_of_enabled {i : Instr} {s : State} (h : enabled i s = true) (f : Dec → Dec) :
    onDec i s f = .next { s with dec := f s.dec } := by
  simp [onDec, h]

/-- What each operation of ENC does to ENC where it is enabled (40_encoder R132 to R137); the identity for DEC's. -/
def encEffect (i : Instr) : Enc → Enc :=
  match i with
  | .eHdr => effEHdr
  | .eBuf b => effEBuf b
  | .eGrp b => effEGrp b
  | .eGrpz => effEGrpz
  | .eEndp => effEEndp
  | .eEnd0 => effEEnd0
  | .dSkip _ | .dLt | .dEofs | .dHdr | .dLtmiss _ | .dTilde | .dWs _ | .dZ | .dZerr | .dDigit _ | .dBad _ | .dEofp
  | .dTrailer | .dTildebad _ => id

/-- What each operation of DEC does to DEC where it is enabled (41_decoder R162 to R175); the identity for ENC's. -/
def decEffect (i : Instr) : Dec → Dec :=
  match i with
  | .dSkip _ => effDSkip
  | .dLt => effDLt
  | .dEofs => effDEofs
  | .dHdr => effDHdr
  | .dLtmiss _ => effDLtmiss
  | .dTilde => effDTilde
  | .dWs _ => effDWs
  | .dZ => effDZ
  | .dZerr => effDZerr
  | .dDigit c => effDDigit c
  | .dBad _ => effDBad
  | .dEofp => effDEofp
  | .dTrailer => effDTrailer
  | .dTildebad _ => effDTildebad
  | .eHdr | .eBuf _ | .eGrp _ | .eGrpz | .eEndp | .eEnd0 => id

/-- exec, whole: an operation completes exactly where it is enabled, with its effect on its own agent and none on the other
(10_state R20, R42, R43). -/
theorem exec_eq (i : Instr) (s : State) :
    exec i s =
      if enabled i s then .next { s with enc := encEffect i s.enc, dec := decEffect i s.dec }
      else .fault (.notEnabled i) := by
  cases i <;> rfl

/-- exec answers a next state exactly where the operation is enabled. -/
theorem exec_eq_next (i : Instr) (s t : State) :
    exec i s = .next t ↔
      enabled i s = true ∧ t = { s with enc := encEffect i s.enc, dec := decEffect i s.dec } := by
  rw [exec_eq]
  split
  · rename_i h
    exact ⟨fun g => ⟨h, (Host.Outcome.next.inj g).symm⟩, fun g => congrArg _ g.2.symm⟩
  · rename_i h
    exact ⟨fun g => (by cases g), fun g => absurd g.1 h⟩

theorem encEffect_of_dec {i : Instr} (h : i.agent = .dec) (e : Enc) : encEffect i e = e := by
  cases i <;> cases h <;> rfl
theorem decEffect_of_enc {i : Instr} (h : i.agent = .enc) (d : Dec) : decEffect i d = d := by
  cases i <;> cases h <;> rfl

/-- A turn of an agent, whole: reset, an operation, or nothing (70_reset R230, R234; 20_memory R66). -/
theorem takeTurn_cases (a : Agent) (s : State) :
    (s.inReset a = true ∧ takeTurn a s = .next (s.takeReset a)) ∨
    (∃ i, s.inReset a = false ∧ s.select a = .op i ∧ (i.pops && s.backlog a) = false ∧ takeTurn a s = exec i s) ∨
    (s.inReset a = false ∧ canRun s a = false ∧ takeTurn a s = .next s) := by
  unfold takeTurn canRun
  cases hr : s.inReset a with
  | true => exact .inl ⟨rfl, rfl⟩
  | false =>
    cases hs : s.select a with
    | idle w => exact .inr (.inr ⟨rfl, rfl, rfl⟩)
    | op i =>
      cases hb : (i.pops && s.backlog a) with
      | true => exact .inr (.inr ⟨rfl, by simp [hb], by simp [hb]⟩)
      | false => exact .inr (.inl ⟨i, rfl, rfl, hb, by simp [hb]⟩)

/-- A step takes the first move of the list. -/
theorem step_cons (s : State) (m : Move) (ms : List Move) (h : s.moves = m :: ms) :
    step s = runMove m { s with moves := ms } := by
  unfold step runNext; simp only [h]

/-- With no move listed, a step takes the first activity that can make progress, or waits. -/
theorem step_nil (s : State) (h : s.moves = []) :
    step s = match defaultMove s with
      | some m => runMove m s
      | none => .next s := by
  unfold step runNext
  cases hd : defaultMove s <;> simp [h]

end Sys2Proof.Machine
end

