-- ==== Sys2Proof/Laws/PerInstr.lean ====
section
/-! SUPPORT. A fact about each operation as a word: the token the encoder writes for a well-formed operation lies in the
row's `ranges` of opcode_table.json (30_encoding R107). -/

namespace Sys2Proof.Laws.TokenInRow

open Sys2Proof

/-- The word encoded for a well-formed operation is one that its row selects (30_encoding R107). -/
def Statement (i : Instr) : Prop := i.wellFormed = true → inRanges i.ranges (encode i).toNat = true

/-- The number of a token's bits (30_encoding R90, R107). -/
theorem toBits_toNat (t : Token) : t.toBits.toNat = t.number := by
  cases t with
  | eos => rfl
  | byte b => simp only [Token.toBits, Token.number, BitVec.toNat_setWidth]; omega

theorem eHdr : Statement .eHdr := fun _ => rfl
theorem eBuf (b : Byte) : Statement (.eBuf b) := fun h => (toBits_toNat (.byte b)).symm ▸ h
theorem eGrp (b : Byte) : Statement (.eGrp b) := fun h => (toBits_toNat (.byte b)).symm ▸ h
theorem eGrpz : Statement .eGrpz := fun _ => rfl
theorem eEndp : Statement .eEndp := fun _ => rfl
theorem eEnd0 : Statement .eEnd0 := fun _ => rfl
theorem dSkip (c : Byte) : Statement (.dSkip c) := fun h => (toBits_toNat (.byte c)).symm ▸ h
theorem dLt : Statement .dLt := fun _ => rfl
theorem dEofs : Statement .dEofs := fun _ => rfl
theorem dHdr : Statement .dHdr := fun _ => rfl
theorem dLtmiss (t : Token) : Statement (.dLtmiss t) := fun h => (toBits_toNat t).symm ▸ h
theorem dTilde : Statement .dTilde := fun _ => rfl
theorem dWs (c : Byte) : Statement (.dWs c) := fun h => (toBits_toNat (.byte c)).symm ▸ h
theorem dZ : Statement .dZ := fun _ => rfl
theorem dZerr : Statement .dZerr := fun _ => rfl
theorem dDigit (c : Byte) : Statement (.dDigit c) := fun h => (toBits_toNat (.byte c)).symm ▸ h
theorem dBad (c : Byte) : Statement (.dBad c) := fun h => (toBits_toNat (.byte c)).symm ▸ h
theorem dEofp : Statement .dEofp := fun _ => rfl
theorem dTrailer : Statement .dTrailer := fun _ => rfl
theorem dTildebad (t : Token) : Statement (.dTildebad t) := fun h => (toBits_toNat t).symm ▸ h

end Sys2Proof.Laws.TokenInRow
end

