-- ==== Sys2Proof/Tests/Slice0.lean ====
section
/-! SUPPORT. The package's own tests: ill-formed operations refused, one written-out word per row, single steps with the
results of 95_test_vectors, and for each obligation with hypotheses a concrete state and operands that meet them. -/

namespace Sys2Proof.Tests
open Sys2Proof Sys2Proof.Machine

/-- The next state, if there is one. -/
def after : Host.Outcome State Fault Refusal → Option State
  | .next s => some s
  | .fault _ => none
  | .refused _ => none

/-- ENC out of reset with the given registers and source; its port has nothing waiting. -/
def encAt (phase : EPhase) (n : Fin 4) (col : BitVec 7) (grp : Machine.Group) (bytes : List Byte) (closed : Bool) : State :=
  { State.reset with
    enc := { State.reset.enc with phase := phase, n := n, col := col, grp := grp, src := ⟨bytes, 0, closed⟩ } }

/-- DEC out of reset with the given registers and source. -/
def decAt (state : DState) (k : Fin 5) (dig : Machine.Digits) (bytes : List Byte) (closed : Bool) : State :=
  { State.reset with
    dec := { State.reset.dec with state := state, k := k, dig := dig, src := ⟨bytes, 0, closed⟩ } }

/-- A state with a list of moves. -/
def withMoves (s : State) (ms : List Move) : State := { s with moves := ms }

/-- What ENC has emitted after an outcome, its line counter and how many bytes stand in its group. -/
def encView (o : Host.Outcome State Fault Refusal) : Option (List Byte × BitVec 7 × Fin 4) :=
  (after o).map fun s => (s.enc.sink.bytes, s.enc.col, s.enc.n)

/-- What DEC has emitted after an outcome, its state, how many digits it holds, its error and its read position. -/
def decView (o : Host.Outcome State Fault Refusal) : Option (List Byte × DState × Fin 5 × DErr × Nat) :=
  (after o).map fun s => (s.dec.sink.bytes, s.dec.state, s.dec.k, s.dec.err, s.dec.src.pos)

/-! WellFormed: one ill-formed operation for each check -/

theorem test_ill_formed_skip : (Instr.dSkip 60).wellFormed = false := by decide
theorem test_ill_formed_ws : (Instr.dWs 11).wellFormed = false := by decide
theorem test_ill_formed_digit : (Instr.dDigit 32).wellFormed = false ∧ (Instr.dDigit 118).wellFormed = false := by decide
theorem test_ill_formed_bad : (Instr.dBad 33).wellFormed = false ∧ (Instr.dBad 126).wellFormed = false := by decide
theorem test_ill_formed_ltmiss : (Instr.dLtmiss (.byte 126)).wellFormed = false := by decide
theorem test_ill_formed_tildebad : (Instr.dTildebad (.byte 62)).wellFormed = false := by decide

/-! One written-out word per row of opcode_table.json, in the state and under the guard of the row -/

theorem test_word_eHdr : decode (.enc .hdr 0 0 0 0) (some 0b010101010#9) = .op .eHdr := by decide
theorem test_word_eBuf : decode (.enc .body 2 0 0 0) (some 0b011111111#9) = .op (.eBuf 0xFF) := by decide
theorem test_word_eGrp : decode (.enc .body 3 0x4D 0x61 0x6E) (some 0b000100000#9) = .op (.eGrp 0x20) := by decide
theorem test_word_eGrp_zero : decode (.enc .body 3 1 0 0) (some 0b000000000#9) = .op (.eGrp 0) := by decide
theorem test_word_eGrpz : decode (.enc .body 3 0 0 0) (some 0b000000000#9) = .op .eGrpz := by decide
theorem test_word_eEndp : decode (.enc .body 3 0 0 0) (some 0b100000000#9) = .op .eEndp := by decide
theorem test_word_eEnd0 : decode (.enc .body 0 0 0 0) (some 0b111111111#9) = .op .eEnd0 := by decide
theorem test_word_dSkip : decode (.dec .seek 0) (some 0b001111110#9) = .op (.dSkip 126) := by decide
theorem test_word_dLt : decode (.dec .seek 0) (some 0b000111100#9) = .op .dLt := by decide
theorem test_word_dEofs : decode (.dec .seek 0) (some 0b100000000#9) = .op .dEofs := by decide
theorem test_word_dHdr : decode (.dec .lt 0) (some 0b001111110#9) = .op .dHdr := by decide
theorem test_word_dLtmiss : decode (.dec .lt 0) (some 0b000111100#9) = .op (.dLtmiss (.byte 60)) := by decide
theorem test_word_dLtmiss_end : decode (.dec .lt 0) (some 0b100111100#9) = .op (.dLtmiss .eos) := by decide
theorem test_word_dTilde : decode (.dec .pay 2) (some 0b001111110#9) = .op .dTilde := by decide
theorem test_word_dWs : decode (.dec .pay 2) (some 0b000100000#9) = .op (.dWs 32) := by decide
theorem test_word_dZ : decode (.dec .pay 0) (some 0b001111010#9) = .op .dZ := by decide
theorem test_word_dZerr : decode (.dec .pay 1) (some 0b001111010#9) = .op .dZerr := by decide
theorem test_word_dDigit : decode (.dec .pay 4) (some 0b000100001#9) = .op (.dDigit 33) := by decide
theorem test_word_dBad : decode (.dec .pay 0) (some 0b001110110#9) = .op (.dBad 118) := by decide
theorem test_word_dEofp : decode (.dec .pay 4) (some 0b100000000#9) = .op .dEofp := by decide
theorem test_word_dTrailer : decode (.dec .tilde 4) (some 0b000111110#9) = .op .dTrailer := by decide
theorem test_word_dTildebad : decode (.dec .tilde 0) (some 0b001111110#9) = .op (.dTildebad (.byte 126)) := by decide
theorem test_word_dTildebad_end : decode (.dec .tilde 0) (some 0b100000000#9) = .op (.dTildebad .eos) := by decide

/-- A word with a bit above bit 8 is no token; one of the table's width is (30_encoding R90). -/
theorem test_table_word : decodeTableWord 16 512 = none ∧ decodeTableWord 16 0b001111010 = some .dZ := by decide

/-! Arithmetic: vectors A9, A14, F3, F6 of 95_test_vectors -/

theorem test_digits_a9 : digits 0x4D616E20 = ⟨24, 73, 80, 78, 61⟩ := by decide
theorem test_digits_a14 : digits 0xFFFFFFFF = ⟨82, 23, 54, 12, 0⟩ := by decide
theorem test_fold_f3 : fold ⟨82, 23, 54, 12, 1⟩ = 0 := by decide
theorem test_fold_f6 : fold ⟨84, 84, 84, 84, 84⟩ = 0x08780EC4 := by decide
theorem test_unpack : unpack 0x01020304 = [1, 2, 3, 4] := by decide

/-! Single operations of ENC (40_encoder, the examples and corner cases; 95_test_vectors S3, E5, E8, E22, E24) -/

theorem test_hdr : encView (exec .eHdr State.reset) = some ([0x3C, 0x7E], 2, 0) := by decide

theorem test_buf : (after (exec (.eBuf 0x4D) (encAt .body 0 2 Group.zero [0x4D] false))).map
    (fun s => (s.enc.grp.b0, s.enc.n, s.enc.src.pos, s.enc.sink.bytes)) = some (0x4D, 1, 1, []) := by decide

theorem test_grp : encView (exec (.eGrp 0x20) (encAt .body 3 2 ⟨0x4D, 0x61, 0x6E, 0⟩ [0x20] false))
    = some ([0x39, 0x6A, 0x71, 0x6F, 0x5E], 7, 0) := by decide

/-- The fourth character finds 75 on the line. -/
theorem test_grp_wraps : encView (exec (.eGrp 0x20) (encAt .body 3 72 ⟨0x4D, 0x61, 0x6E, 0⟩ [0x20] false))
    = some ([0x39, 0x6A, 0x71, 10, 0x6F, 0x5E], 2, 0) := by decide

theorem test_grpz : encView (exec .eGrpz (encAt .body 3 74 Group.zero [0] false)) = some ([0x7A], 75, 0) := by decide

theorem test_grpz_wraps : encView (exec .eGrpz (encAt .body 3 75 Group.zero [0] false)) = some ([10, 0x7A], 1, 0) := by decide

/-- E8: one byte FF gives `rr`; the rest of the buffer is not used. -/
theorem test_endp : encView (exec .eEndp (encAt .body 1 2 ⟨0xFF, 9, 9, 9⟩ [] true))
    = some ([0x72, 0x72, 0x7E, 0x3E], 4, 0) := by decide

/-- E4: three zero bytes give four `!`, never `z`. -/
theorem test_endp_zero : encView (exec .eEndp (encAt .body 3 2 Group.zero [] true))
    = some ([33, 33, 33, 33, 0x7E, 0x3E], 6, 0) := by decide

/-- E21, E26: the trailer is written with no line check. -/
theorem test_end0 : encView (exec .eEnd0 (encAt .body 0 75 Group.zero [] true)) = some ([0x7E, 0x3E], 75, 0) := by decide

/-! Single operations of DEC (41_decoder, the examples and corner cases; 95_test_vectors D8, D15, D17, D19, D26) -/

theorem test_skip : decView (exec (.dSkip 0x7E) (decAt .seek 0 Digits.zero [0x7E] false))
    = some ([], .seek, 0, .none, 1) := by decide
theorem test_lt : decView (exec .dLt (decAt .seek 0 Digits.zero [0x3C] false)) = some ([], .lt, 0, .none, 1) := by decide
theorem test_eofs : decView (exec .dEofs (decAt .seek 0 Digits.zero [] true)) = some ([], .done, 0, .none, 0) := by decide
theorem test_dhdr : decView (exec .dHdr (decAt .lt 0 Digits.zero [0x7E] false)) = some ([], .pay, 0, .none, 1) := by decide
theorem test_ltmiss : decView (exec (.dLtmiss (.byte 60)) (decAt .lt 0 Digits.zero [60] false))
    = some ([], .seek, 0, .none, 0) := by decide
theorem test_tilde : decView (exec .dTilde (decAt .pay 2 Digits.zero [0x7E] false)) = some ([], .tilde, 2, .none, 1) := by decide
theorem test_ws : decView (exec (.dWs 10) (decAt .pay 3 Digits.zero [10] false)) = some ([], .pay, 3, .none, 1) := by decide
theorem test_z : decView (exec .dZ (decAt .pay 0 Digits.zero [122] false)) = some ([0, 0, 0, 0], .pay, 0, .none, 1) := by decide
theorem test_zerr : decView (exec .dZerr (decAt .pay 2 Digits.zero [122] false))
    = some ([], .err, 2, .unexpectedShorthand, 1) := by decide

theorem test_digit : (after (exec (.dDigit 117) (decAt .pay 1 Digits.zero [117] false))).map
    (fun s => (s.dec.dig, s.dec.k, s.dec.sink.bytes)) = some (⟨0, 84, 0, 0, 0⟩, 2, []) := by decide

theorem test_digit_fifth : decView (exec (.dDigit 0x5E) (decAt .pay 4 ⟨24, 73, 80, 78, 0⟩ [0x5E] false))
    = some ([0x4D, 0x61, 0x6E, 0x20], .pay, 0, .none, 1) := by decide

theorem test_bad : decView (exec (.dBad 123) (decAt .pay 1 Digits.zero [123] false))
    = some ([], .err, 1, .malformedDigit, 1) := by decide

/-- D14: four digits at the end of input give three bytes. -/
theorem test_eofp : decView (exec .dEofp (decAt .pay 4 ⟨24, 73, 80, 78, 0⟩ [] true))
    = some ([0x4D, 0x61, 0x6E], .done, 0, .none, 0) := by decide

/-- D15: one digit at the end of input gives no byte and no error. -/
theorem test_eofp_one : decView (exec .dEofp (decAt .pay 1 ⟨24, 73, 80, 78, 0⟩ [] true))
    = some ([], .done, 0, .none, 0) := by decide

/-- D8. -/
theorem test_trailer : decView (exec .dTrailer (decAt .tilde 2 ⟨81, 81, 0, 0, 0⟩ [0x3E] false))
    = some ([0xFF], .done, 0, .none, 1) := by decide

/-- D26: the padding of `uu` wraps. -/
theorem test_trailer_wraps : decView (exec .dTrailer (decAt .tilde 2 ⟨84, 84, 0, 0, 0⟩ [0x3E] false))
    = some ([0x08], .done, 0, .none, 1) := by decide

/-- D19: the token after the `~` is not popped, nothing is flushed. -/
theorem test_tildebad : decView (exec (.dTildebad (.byte 126)) (decAt .tilde 2 Digits.zero [126] false))
    = some ([], .err, 2, .malformedDigit, 0) := by decide

/-! Single steps -/

/-- From reset the first step emits the header (log entry 1). -/
theorem test_step_reset : encView (step State.reset) = some ([0x3C, 0x7E], 2, 0) := by decide

/-- A popping operation waits while emitted bytes are still to be presented (20_memory R66). -/
theorem test_step_backlog :
    (after (step { encAt .body 0 2 Group.zero [7] false with
      enc := { (encAt .body 0 2 Group.zero [7] false).enc with sink := ⟨[60, 126], 1⟩ }
      moves := [.turn .enc] })).map (fun s => (s.enc.n, s.enc.src.pos)) = some (0, 0) := by decide

/-- The last unread byte survives reset, the popped one does not (log entry 5). -/
theorem test_step_reset_line :
    (after (step { encAt .body 1 2 Group.zero [7, 8] false with
      enc := { (encAt .body 1 2 Group.zero [7, 8] false).enc with src := ⟨[7, 8], 1, false⟩ }
      moves := [.setReset .enc true] })).map (fun s => (s.enc.phase, s.enc.n, s.enc.src.bytes, s.enc.rst))
      = some (.hdr, 0, [8], true) := by decide

/-- `withFetchWord` on reset: the next step runs the decoded operation. -/
theorem test_fetch_word : decView (step (State.reset.withFetchWord 16 122)) = some ([0, 0, 0, 0], .pay, 0, .none, 1) := by
  decide

/-! Witnesses: for each obligation with hypotheses, a state and operands that meet them, one for each clause, at the ends of
its range. An obligation without hypotheses has none. -/

theorem witness_PartialGroupSurvivesTruncation :
    (0 < (1 : Fin 4).val ∧ (2 : Fin 5).val = (1 : Fin 4).val + 1) ∧ (0 < (3 : Fin 4).val ∧ (4 : Fin 5).val = (3 : Fin 4).val + 1) := by
  decide

theorem witness_ChrAndValAreInverse : (33 ≤ (33 : Byte).toNat ∧ (33 : Byte).toNat ≤ 117) ∧ (33 ≤ (117 : Byte).toNat ∧ (117 : Byte).toNat ≤ 117) := by
  decide

theorem witness_PackIsBigEndian : unpack 0x01020304 = [1, 2, 3, 4] := by decide

theorem witness_TokenFieldsAreAsGiven : (0x1FF#9).getLsbD 8 = true ∧ (0x0FF#9).getLsbD 8 = false := by decide

theorem witness_DecodeGivesBackTheEncodedOperation :
    ([(.eHdr, .enc .hdr 0 0 0 0), (.eBuf 255, .enc .body 2 0 0 0), (.eGrp 0, .enc .body 3 0 1 0), (.eGrpz, .enc .body 3 0 0 0),
      (.eEndp, .enc .body 1 0 0 0), (.eEnd0, .enc .body 0 0 0 0), (.dSkip 255, .dec .seek 0), (.dLt, .dec .seek 0),
      (.dEofs, .dec .seek 0), (.dHdr, .dec .lt 0), (.dLtmiss .eos, .dec .lt 0), (.dLtmiss (.byte 127), .dec .lt 0),
      (.dTilde, .dec .pay 4), (.dWs 9, .dec .pay 1), (.dZ, .dec .pay 0), (.dZerr, .dec .pay 4), (.dDigit 33, .dec .pay 0),
      (.dDigit 117, .dec .pay 4), (.dBad 0, .dec .pay 0), (.dBad 127, .dec .pay 0), (.dEofp, .dec .pay 0),
      (.dTrailer, .dec .tilde 0), (.dTildebad .eos, .dec .tilde 0), (.dTildebad (.byte 61), .dec .tilde 0)]
      : List (Instr × Selector)).all (fun x => x.1.wellFormed && x.1.fits x.2) = true := by decide

theorem witness_DecodedOperationMatchesItsRow :
    decode (.dec .pay 0) (some 0x021#9) = .op (.dDigit 33) ∧ decode (.enc .hdr 0 0 0 0) (some 0x1FF#9) = .op .eHdr := by decide

theorem witness_ExactlyOneOperationEnabled :
    State.reset.enc.phase = .hdr
    ∧ ((encAt .body 0 2 Group.zero [] true).enc.phase = .body ∧ (encAt .body 0 2 Group.zero [] true).enc.src.peek.isSome = true)
    ∧ ((decAt .tilde 4 Digits.zero [] true).dec.state ≠ .done ∧ (decAt .tilde 4 Digits.zero [] true).dec.state ≠ .err
        ∧ (decAt .tilde 4 Digits.zero [] true).dec.src.peek.isSome = true) := by decide

theorem witness_NoOperationInTerminalStates :
    (Instr.eEnd0.agent = .enc ∧ (encAt .done 0 2 Group.zero [] true).enc.phase = .done)
    ∧ (Instr.dEofp.agent = .dec ∧ (decAt .done 0 Digits.zero [] true).dec.state = .done)
    ∧ (Instr.dZ.agent = .dec ∧ (decAt .err 0 Digits.zero [122] true).dec.state = .err) := by decide

theorem witness_HdrEmitsTheHeader : State.reset.enc.phase = .hdr := by decide

theorem witness_BufStoresTheByte : ∀ n : Fin 4, n.val < 3 →
    (encAt .body n 2 Group.zero [7] false).enc.phase = .body
    ∧ (encAt .body n 2 Group.zero [7] false).enc.src.peek = some (.byte 7)
    ∧ (encAt .body n 2 Group.zero [7] false).enc.n.val < 3 := by decide

theorem witness_GrpWritesFiveDigits :
    let s := encAt .body 3 75 ⟨0, 0, 0, 9⟩ [1] false
    s.enc.phase = .body ∧ s.enc.src.peek = some (.byte 1) ∧ s.enc.n = 3
    ∧ packSum s.enc.grp.b0 s.enc.grp.b1 s.enc.grp.b2 1 ≠ 0 := by decide

theorem witness_GrpzWritesTheShorthand :
    let s := encAt .body 3 75 ⟨0, 0, 0, 9⟩ [0] false
    s.enc.phase = .body ∧ s.enc.src.peek = some (.byte 0) ∧ s.enc.n = 3
    ∧ s.enc.grp.b0 = 0 ∧ s.enc.grp.b1 = 0 ∧ s.enc.grp.b2 = 0 := by decide

theorem witness_EndpWritesThePartialGroup : ∀ n : Fin 4, n ≠ 0 →
    (encAt .body n 75 Group.zero [] true).enc.phase = .body
    ∧ (encAt .body n 75 Group.zero [] true).enc.src.peek = some .eos
    ∧ (encAt .body n 75 Group.zero [] true).enc.n ≠ 0 := by decide

theorem witness_End0WritesTheTrailer :
    let s := encAt .body 0 75 Group.zero [] true
    s.enc.phase = .body ∧ s.enc.src.peek = some .eos ∧ s.enc.n = 0 := by decide

theorem witness_SeekingOperationsDoThis :
    ((decAt .seek 0 Digits.zero [61] false).dec.state = .seek
      ∧ (decAt .seek 0 Digits.zero [61] false).dec.src.peek = some (.byte 61) ∧ (61 : Byte) ≠ 60)
    ∧ ((decAt .seek 0 Digits.zero [60] false).dec.state = .seek
      ∧ (decAt .seek 0 Digits.zero [60] false).dec.src.peek = some (.byte 60))
    ∧ ((decAt .seek 0 Digits.zero [] true).dec.state = .seek ∧ (decAt .seek 0 Digits.zero [] true).dec.src.peek = some .eos)
    ∧ ((decAt .lt 0 Digits.zero [126] false).dec.state = .lt
      ∧ (decAt .lt 0 Digits.zero [126] false).dec.src.peek = some (.byte 126))
    ∧ ((decAt .lt 0 Digits.zero [125] false).dec.state = .lt
      ∧ (decAt .lt 0 Digits.zero [125] false).dec.src.peek = some (.byte 125) ∧ Token.byte 125 ≠ .byte 126)
    ∧ ((decAt .lt 0 Digits.zero [] true).dec.state = .lt ∧ (decAt .lt 0 Digits.zero [] true).dec.src.peek = some .eos
      ∧ Token.eos ≠ .byte 126) := by decide

theorem witness_PayloadOperationsDoThis :
    ((decAt .pay 4 Digits.zero [126] false).dec.state = .pay
      ∧ (decAt .pay 4 Digits.zero [126] false).dec.src.peek = some (.byte 126))
    ∧ ([9, 10, 13, 32] : List Byte).all (fun c =>
        decide ((decAt .pay 4 Digits.zero [c] false).dec.state = .pay
          ∧ (decAt .pay 4 Digits.zero [c] false).dec.src.peek = some (.byte c) ∧ (c = 9 ∨ c = 10 ∨ c = 13 ∨ c = 32))) = true
    ∧ ((decAt .pay 0 Digits.zero [122] false).dec.state = .pay
      ∧ (decAt .pay 0 Digits.zero [122] false).dec.src.peek = some (.byte 122)
      ∧ (decAt .pay 0 Digits.zero [122] false).dec.k = 0) := by decide

theorem witness_DigitBuffersOrDecodes : ∀ k : Fin 5,
    ([33, 117] : List Byte).all (fun c =>
      decide ((decAt .pay k Digits.zero [c] false).dec.state = .pay
        ∧ (decAt .pay k Digits.zero [c] false).dec.src.peek = some (.byte c) ∧ 33 ≤ c.toNat ∧ c.toNat ≤ 117)) = true := by decide

theorem witness_RaisingOperationsDoThis :
    ((decAt .pay 1 Digits.zero [122] false).dec.state = .pay
      ∧ (decAt .pay 1 Digits.zero [122] false).dec.src.peek = some (.byte 122)
      ∧ (decAt .pay 1 Digits.zero [122] false).dec.k ≠ 0)
    ∧ ([0, 8, 11, 12, 14, 31, 118, 121, 123, 125, 127, 255] : List Byte).all (fun c =>
        decide ((decAt .pay 4 Digits.zero [c] false).dec.state = .pay
          ∧ (decAt .pay 4 Digits.zero [c] false).dec.src.peek = some (.byte c)
          ∧ (c.toNat ≤ 8 ∨ c.toNat = 11 ∨ c.toNat = 12 ∨ (14 ≤ c.toNat ∧ c.toNat ≤ 31) ∨ (118 ≤ c.toNat ∧ c.toNat ≤ 121)
            ∨ (123 ≤ c.toNat ∧ c.toNat ≤ 125) ∨ 127 ≤ c.toNat))) = true
    ∧ ((decAt .tilde 4 Digits.zero [63] false).dec.state = .tilde
      ∧ (decAt .tilde 4 Digits.zero [63] false).dec.src.peek = some (.byte 63) ∧ Token.byte 63 ≠ .byte 62)
    ∧ ((decAt .tilde 0 Digits.zero [] true).dec.state = .tilde
      ∧ (decAt .tilde 0 Digits.zero [] true).dec.src.peek = some .eos ∧ Token.eos ≠ .byte 62) := by decide

theorem witness_FlushWritesAllButOne :
    (decAt .pay 0 Digits.zero [] true).dec.k.val = 0 ∧ 0 < (decAt .pay 1 Digits.zero [] true).dec.k.val
    ∧ 0 < (decAt .pay 4 Digits.zero [] true).dec.k.val := by decide

theorem witness_EndsOfPayloadFlush :
    ((decAt .pay 4 Digits.zero [] true).dec.state = .pay ∧ (decAt .pay 4 Digits.zero [] true).dec.src.peek = some .eos)
    ∧ ((decAt .tilde 0 Digits.zero [62] false).dec.state = .tilde
      ∧ (decAt .tilde 0 Digits.zero [62] false).dec.src.peek = some (.byte 62)) := by decide

/-- For the frames over every operation: one operation of each agent, one of each that pops, raises or ends a run. -/
theorem witness_frames :
    (∃ t, exec .eHdr State.reset = .next t ∧ Instr.eHdr.agent = .enc)
    ∧ (∃ t, exec (.eBuf 7) (encAt .body 0 2 Group.zero [7] false) = .next t ∧ (Instr.eBuf 7).pops = true)
    ∧ (∃ t, exec .eGrpz (encAt .body 3 2 Group.zero [0] false) = .next t)
    ∧ (∃ t, exec .eEndp (encAt .body 3 2 Group.zero [] true) = .next t)
    ∧ (∃ t, exec .eEnd0 (encAt .body 0 2 Group.zero [] true) = .next t)
    ∧ (∃ t, exec (.dSkip 7) (decAt .seek 0 Digits.zero [7] false) = .next t ∧ (Instr.dSkip 7).agent = .dec)
    ∧ (∃ t, exec .dLt (decAt .seek 0 Digits.zero [60] false) = .next t)
    ∧ (∃ t, exec .dEofs (decAt .seek 0 Digits.zero [] true) = .next t)
    ∧ (∃ t, exec .dHdr (decAt .lt 0 Digits.zero [126] false) = .next t)
    ∧ (∃ t, exec (.dDigit 33) (decAt .pay 4 Digits.zero [33] false) = .next t)
    ∧ (∃ t, exec .dZerr (decAt .pay 4 Digits.zero [122] false) = .next t
        ∧ t.dec.err ≠ (decAt .pay 4 Digits.zero [122] false).dec.err)
    ∧ (∃ t, exec (.dBad 0) (decAt .pay 4 Digits.zero [0] false) = .next t)
    ∧ (∃ t, exec .dEofp (decAt .pay 4 Digits.zero [] true) = .next t)
    ∧ (∃ t, exec .dTrailer (decAt .tilde 4 Digits.zero [62] false) = .next t)
    ∧ (∃ t, exec (.dTildebad .eos) (decAt .tilde 4 Digits.zero [] true) = .next t) :=
  ⟨⟨_, rfl, rfl⟩, ⟨_, rfl, rfl⟩, ⟨_, rfl⟩, ⟨_, rfl⟩, ⟨_, rfl⟩, ⟨_, rfl, rfl⟩, ⟨_, rfl⟩, ⟨_, rfl⟩, ⟨_, rfl⟩, ⟨_, rfl⟩,
   ⟨_, rfl, by decide⟩, ⟨_, rfl⟩, ⟨_, rfl⟩, ⟨_, rfl⟩, ⟨_, rfl⟩⟩

/-- For `OperationsCountDown` and `EndOfRunLeavesTheSourceHere`: the read positions are within their sources. -/
theorem witness_EndOfRunLeavesTheSourceHere :
    let s := decAt .tilde 4 Digits.zero [62] false
    (∃ t, exec .dTrailer s = .next t) ∧ s.enc.src.pos ≤ s.enc.src.bytes.length ∧ s.dec.src.pos ≤ s.dec.src.bytes.length :=
  ⟨⟨_, rfl⟩, by decide, by decide⟩

/-- A state whose ENC has a byte in its source and one emitted byte still to be presented. -/
def waiting : State :=
  { encAt .body 0 2 Group.zero [7] false with
    enc := { (encAt .body 0 2 Group.zero [7] false).enc with sink := ⟨[60, 126], 1⟩ } }

theorem witness_StepRunsTheDecodedOperation :
    ((withMoves State.reset [.turn .enc]).moves = [.turn .enc] ∧ State.reset.inReset .enc = false
      ∧ (withMoves State.reset [.turn .enc]).select .enc = .op .eHdr ∧ Instr.eHdr.pops = false)
    ∧ ((withMoves (decAt .pay 0 Digits.zero [122] false) [.turn .dec]).select .dec = .op .dZ
      ∧ (withMoves (decAt .pay 0 Digits.zero [122] false) [.turn .dec]).inReset .dec = false
      ∧ (withMoves (decAt .pay 0 Digits.zero [122] false) [.turn .dec]).backlog .dec = false)
    ∧ ((withMoves waiting [.turn .enc]).moves = [.turn .enc] ∧ (withMoves waiting [.turn .enc]).inReset .enc = false
      ∧ (withMoves waiting [.turn .enc]).select .enc = .op (.eBuf 7) ∧ (Instr.eBuf 7).pops = true
      ∧ (withMoves waiting [.turn .enc]).backlog .enc = true) := by decide

theorem witness_StepWaitsWithNothingEnabled :
    ((withMoves State.reset [.turn .dec]).inReset .dec = false ∧ (withMoves State.reset [.turn .dec]).select .dec = .idle .noToken)
    ∧ ((withMoves (decAt .err 0 Digits.zero [1] true) [.turn .dec]).inReset .dec = false
      ∧ (withMoves (decAt .err 0 Digits.zero [1] true) [.turn .dec]).select .dec = .idle .runOver) := by decide

/-- Each of the three outcomes with no move listed: a port presents, an operation runs, nothing happens. -/
theorem witness_StepWithoutMovesMakesProgress :
    waiting.moves = [] ∧ step waiting = .next (waiting.present .enc)
    ∧ step State.reset = exec .eHdr State.reset
    ∧ step (encAt .body 0 2 Group.zero [] false) = .next (encAt .body 0 2 Group.zero [] false) :=
  ⟨rfl, rfl, rfl, rfl⟩

theorem witness_PortPresentsTheNextByte :
    ((withMoves waiting [.port .enc]).moves = [.port .enc] ∧ (withMoves waiting [.port .enc]).enc.rst = false)
    ∧ ((withMoves State.reset [.port .dec]).moves = [.port .dec] ∧ (withMoves State.reset [.port .dec]).dec.rst = false)
    ∧ (waiting.sink .enc).bytes[(waiting.sink .enc).sent]? = some 126 := by decide

/-- The block with both reset lines high. -/
def held : State := (State.reset.setReset .enc true).setReset .dec true

theorem witness_ResetLineForcesResetValues :
    (withMoves held [.turn .enc]).enc.rst = true ∧ (withMoves held [.port .dec]).dec.rst = true
    ∧ (withMoves held [.turn .enc]).moves = [.turn .enc] ∧ (withMoves held [.port .dec]).moves = [.port .dec]
    ∧ (withMoves waiting [.setReset .enc true]).moves = [.setReset .enc true]
    ∧ (withMoves waiting [.setReset .dec true]).moves = [.setReset .dec true]
    ∧ (withMoves held [.setReset .enc false]).moves = [.setReset .enc false]
    ∧ (withMoves held [.setReset .dec false]).moves = [.setReset .dec false]
    ∧ (withMoves held [.reopen .enc]).moves = [.reopen .enc] ∧ (withMoves held [.reopen .dec]).moves = [.reopen .dec] := by
  decide

theorem witness_HostMovesHoldThePresentedToken :
    ((withMoves waiting [.offer .enc 8]).moves = [.offer .enc 8] ∧ (waiting.source .enc).peek = some (.byte 7))
    ∧ (withMoves (encAt .body 0 2 Group.zero [] true) [.close .enc]).moves = [.close .enc]
    ∧ ((withMoves (encAt .body 0 2 Group.zero [] true) [.reopen .enc]).inReset .enc = false
      ∧ ((withMoves (encAt .body 0 2 Group.zero [] true) [.reopen .enc]).source .enc).peek = some .eos) := by decide

theorem witness_EndOfSourcePersists :
    let s := encAt .body 3 2 Group.zero [] true
    (∃ t, step s = .next t) ∧ s.inReset .enc = false ∧ (s.source .enc).peek = some .eos :=
  ⟨⟨_, rfl⟩, by decide, by decide⟩

theorem witness_FetchWordRunsTheDecodedOperation :
    decodeTableWord 9 0 = some .eGrpz ∧ decodeTableWord 9 256 = some .eEndp ∧ decodeTableWord 9 117 = some (.dDigit 117)
    ∧ decodeTableWord 9 62 = some .dTrailer := by decide

/-- A state of DEC that meets its invariant, in the middle of a digit group with a character of class OTHER next. -/
theorem decAt_inv : (decAt .pay 1 Digits.zero [123] false).dec.Inv where
  seeking := by decide
  err_iff := by decide
  whole := by decide
  pos_le := by decide
  sent_le := by decide
  reset := fun h => absurd h (by decide)

/-- The invariant holds at reset, where both agents stand at their reset values. -/
theorem reset_inv : State.reset.Inv :=
  ⟨⟨by decide, by decide, by decide, by decide, by decide, fun h => absurd h (by decide)⟩,
   ⟨by decide, by decide, by decide, by decide, by decide, fun h => absurd h (by decide)⟩⟩

theorem witness_ErrorCauseIsSetOnceAndKept :
    ∃ s t : State, s.dec.Inv ∧ step s = .next t ∧ t.dec.err ≠ s.dec.err :=
  ⟨withMoves (decAt .pay 1 Digits.zero [123] false) [.turn .dec], _, decAt_inv, rfl, by decide⟩

theorem witness_OnlyResetLeavesATerminalState :
    (∃ t, step (withMoves (encAt .done 0 2 Group.zero [] true) [.turn .enc]) = .next t)
    ∧ (encAt .done 0 2 Group.zero [] true).enc.phase = .done
    ∧ (∃ t, step (withMoves (decAt .err 0 Digits.zero [] true) [.setReset .dec true]) = .next t)
    ∧ (decAt .err 0 Digits.zero [] true).dec.state = .err ∧ (decAt .done 0 Digits.zero [] true).dec.state = .done :=
  ⟨⟨_, rfl⟩, rfl, ⟨_, rfl⟩, rfl, rfl⟩

theorem witness_SinksOnlyGrowUntilReset : (∃ t, step State.reset = .next t) ∧ ∃ t, step waiting = .next t :=
  ⟨⟨_, rfl⟩, ⟨_, rfl⟩⟩

theorem witness_AgentsCommute :
    (Move.turn .enc).agent = .enc ∧ (Move.offer .dec 60).agent = .dec := by decide

theorem witness_AgentsCannotSeeEachOther :
    ∃ s s' t t' : State, s.moves = [.turn .enc] ∧ s'.moves = [.turn .enc] ∧ step s = .next t ∧ step s' = .next t'
      ∧ (Move.turn .enc).agent = .enc ∧ s.enc = s'.enc ∧ s.dec ≠ s'.dec :=
  ⟨withMoves State.reset [.turn .enc], withMoves (decAt .err 3 Digits.zero [1] true) [.turn .enc], _, _,
    rfl, rfl, rfl, rfl, rfl, rfl, by decide⟩

theorem witness_StepKeepsTheInvariant : ∃ t : State, State.reset.Inv ∧ step State.reset = .next t :=
  ⟨_, reset_inv, rfl⟩

theorem witness_StepKeepsTheEncoderOnTrack :
    ∃ t : State, State.reset.Inv ∧ State.reset.enc.Tracks ∧ step State.reset = .next t :=
  ⟨_, reset_inv, ⟨fun _ => rfl, fun h => (by cases h), fun h => (by cases h)⟩, rfl⟩

theorem witness_StepKeepsTheDecoderOnTrack :
    ∃ t : State, State.reset.Inv ∧ State.reset.dec.Tracks ∧ step State.reset = .next t :=
  ⟨_, reset_inv, fun _ _ => rfl, rfl⟩

theorem witness_StepKeepsLinesWithinTheLimit :
    ∃ t : State, State.reset.Inv ∧ State.reset.enc.LinesFit ∧ step State.reset = .next t :=
  ⟨_, reset_inv, ⟨[], by decide⟩, rfl⟩

theorem witness_StepKeepsTheSinkShaped :
    ∃ t : State, State.reset.Inv ∧ State.reset.enc.Shaped ∧ step State.reset = .next t :=
  ⟨_, reset_inv, ⟨fun _ => rfl, fun h => (by cases h), fun h => (by cases h)⟩, rfl⟩

/-- ENC done with the source `4D`, DEC done with ENC's text `<~9` and a backquote `~>` (95_test_vectors E17). -/
def roundTrip : State where
  enc := { State.reset.enc with
    phase := .done, n := 0, col := 4, grp := ⟨0x4D, 0, 0, 0⟩, src := ⟨[0x4D], 1, true⟩
    sink := ⟨[0x3C, 0x7E, 0x39, 0x60, 0x7E, 0x3E], 6⟩ }
  dec := { State.reset.dec with
    state := .done, dig := ⟨24, 63, 84, 84, 84⟩, src := ⟨[0x3C, 0x7E, 0x39, 0x60, 0x7E, 0x3E], 6, true⟩, sink := ⟨[0x4D], 1⟩ }
  moves := []

theorem witness_DecodingWhatWasEncodedGivesTheSource :
    roundTrip.enc.Tracks ∧ roundTrip.dec.Tracks ∧ roundTrip.enc.phase = .done
    ∧ roundTrip.dec.src.bytes = roundTrip.enc.sink.bytes ∧ roundTrip.dec.state = .done := by
  refine ⟨⟨fun h => (by cases h), fun h => (by cases h), fun _ => by decide⟩, ?_, rfl, rfl, rfl⟩
  intro more h
  rw [h rfl]
  decide

/-- The last two clauses: a source used up, at position 0 and behind its last byte. -/
theorem witness_HostMovesFeedTheSource :
    ((withMoves State.reset [.offer .enc 7]).moves = [.offer .enc 7] ∧ (State.reset.source .enc).closed = false
      ∧ (State.reset.source .enc).pos = (State.reset.source .enc).bytes.length)
    ∧ (withMoves State.reset [.offer .dec 60]).moves = [.offer .dec 60]
    ∧ ((withMoves State.reset [.close .enc]).moves = [.close .enc] ∧ (State.reset.source .enc).bytes.length ≤ (State.reset.source .enc).pos)
    ∧ ((withMoves roundTrip [.close .dec]).moves = [.close .dec]
      ∧ (roundTrip.source .dec).bytes.length ≤ (roundTrip.source .dec).pos) := by decide

/-- `x_in_pop` asserted, held low by a waiting byte and by a terminal state, and a turn that completes. -/
theorem witness_InputPortShowsTheHeadToken :
    inPop (decAt .pay 0 Digits.zero [122] false) .dec = true ∧ inPop waiting .enc = false
    ∧ (encAt .done 0 2 Group.zero [7] false).enc.phase = .done ∧ (decAt .err 0 Digits.zero [122] false).dec.state = .err
    ∧ (decAt .done 0 Digits.zero [122] false).dec.state = .done
    ∧ ∃ t, step (withMoves (decAt .pay 0 Digits.zero [122] false) [.turn .dec]) = .next t
        ∧ (decAt .pay 0 Digits.zero [122] false).inReset .dec = false :=
  ⟨by decide, by decide, rfl, rfl, rfl, _, rfl, rfl⟩

/-- A byte offered to a used-up source stands at its head; `END` signalled after it does not hide it (20_memory R60). -/
theorem test_offer_close :
    (after (step (withMoves State.reset [.offer .dec 60]))).map (fun s => (s.source .dec).peek) = some (some (.byte 60))
    ∧ (after (step (withMoves (decAt .seek 0 Digits.zero [60] false) [.close .dec]))).map (fun s => (s.source .dec).peek)
      = some (some (.byte 60)) := by decide

end Sys2Proof.Tests
end

section
/-! PROOFS. The arithmetic primitives of 00_scope R13 to R16: what each answers as a number, and which undoes which. -/

namespace Sys2Proof.Machine

/-! `Pack` and `Unpack` (00_scope R13) -/

theorem pack_toNat (b0 b1 b2 b3 : Byte) : (pack b0 b1 b2 b3).toNat = packSum b0 b1 b2 b3 := by
  unfold pack packSum
  simp only [BitVec.toNat_append]
  rw [← Nat.shiftLeft_add_eq_or_of_lt b1.isLt, ← Nat.shiftLeft_add_eq_or_of_lt b2.isLt,
    ← Nat.shiftLeft_add_eq_or_of_lt b3.isLt]
  simp only [Nat.shiftLeft_eq]
  omega

theorem unpack_eq_bytesOf (w : Word) : unpack w = bytesOf w.toNat := by
  simp [unpack, bytesOf, BitVec.extractLsb', Nat.shiftRight_eq_div_pow]

/-- The four bytes of a sum by weight are its summands. -/
theorem bytesOf_packSum (b0 b1 b2 b3 : Byte) : bytesOf (packSum b0 b1 b2 b3) = [b0, b1, b2, b3] := by
  have h1 := b1.isLt
  have h2 := b2.isLt
  have h3 := b3.isLt
  unfold bytesOf packSum
  simp only [List.cons.injEq, and_true, BitVec.toNat_eq, BitVec.toNat_ofNat]
  omega

@[simp] theorem unpack_pack (b0 b1 b2 b3 : Byte) : unpack (pack b0 b1 b2 b3) = [b0, b1, b2, b3] := by
  rw [unpack_eq_bytesOf, pack_toNat, bytesOf_packSum]

theorem pack_extractLsb' (w : Word) :
    pack (w.extractLsb' 24 8) (w.extractLsb' 16 8) (w.extractLsb' 8 8) (w.extractLsb' 0 8) = w := by
  apply BitVec.eq_of_toNat_eq
  have hw := w.isLt
  rw [pack_toNat]
  simp only [packSum, BitVec.extractLsb'_toNat, Nat.shiftRight_eq_div_pow]
  omega

theorem pack_of_unpack_eq {w : Word} {y0 y1 y2 y3 : Byte} (h : unpack w = [y0, y1, y2, y3]) :
    pack y0 y1 y2 y3 = w := by
  simp only [unpack, List.cons.injEq, and_true] at h
  obtain ⟨rfl, rfl, rfl, rfl⟩ := h
  exact pack_extractLsb' w

/-! `Digits` (00_scope R14) -/

/-- The bound behind R14: what four divisions by 85 leave of a word is one digit already, so five digits lose nothing. -/
theorem toNat_div_85_pow_4_le (w : Word) : w.toNat / 85 ^ 4 ≤ 82 := by
  have hw := w.isLt
  omega

theorem digits_g0_val (w : Word) : (digits w).g0.val = w.toNat / 85 ^ 4 % 85 := by
  simp [digits, Nat.div_div_eq_div_mul]
theorem digits_g1_val (w : Word) : (digits w).g1.val = w.toNat / 85 ^ 3 % 85 := by
  simp [digits, Nat.div_div_eq_div_mul]
theorem digits_g2_val (w : Word) : (digits w).g2.val = w.toNat / 85 ^ 2 % 85 := by
  simp [digits, Nat.div_div_eq_div_mul]
theorem digits_g3_val (w : Word) : (digits w).g3.val = w.toNat / 85 % 85 := by
  simp [digits]
theorem digits_g4_val (w : Word) : (digits w).g4.val = w.toNat % 85 := by
  simp [digits]

theorem digits_g0_le (w : Word) : (digits w).g0.val ≤ 82 := by
  rw [digits_g0_val]
  exact (Nat.mod_le _ _).trans (toNat_div_85_pow_4_le w)

@[simp] theorem digitSum_digits (w : Word) : digitSum (digits w) = w.toNat := by
  have htop := toNat_div_85_pow_4_le w
  rw [digitSum, digits_g0_val, digits_g1_val, digits_g2_val, digits_g3_val, digits_g4_val]
  omega

/-! `Fold` (00_scope R15) -/

theorem foldStep_toNat (w : Word) (g : Digit) : (foldStep w g).toNat = (w.toNat * 85 + g.val) % 2 ^ 32 := by
  simp [foldStep, BitVec.toNat_add, BitVec.toNat_mul]

theorem fold_toNat (d : Digits) : (fold d).toNat = digitSum d % 2 ^ 32 := by
  simp only [fold, Digits.toList, List.foldl_cons, List.foldl_nil, foldStep_toNat, digitSum,
    BitVec.ofNat_eq_ofNat, BitVec.toNat_ofNat]
  omega

@[simp] theorem fold_digits (w : Word) : fold (digits w) = w := by
  apply BitVec.eq_of_toNat_eq
  rw [fold_toNat, digitSum_digits, Nat.mod_eq_of_lt w.isLt]

/-! `Chr` and `Val` (00_scope R16) -/

@[simp] theorem chr_toNat (g : Digit) : (chr g).toNat = g.val + 33 := by
  have hg := g.isLt
  rw [chr, BitVec.toNat_ofNat, Nat.mod_eq_of_lt (by omega)]

theorem val_val {c : Byte} (hc : c.toNat ≤ 117) : (val c).val = c.toNat - 33 := by
  rw [val, Fin.val_ofNat, Nat.mod_eq_of_lt (by omega)]

@[simp] theorem val_chr (g : Digit) : val (chr g) = g := by
  have hg := g.isLt
  apply Fin.ext
  rw [val_val (by rw [chr_toNat]; omega), chr_toNat, Nat.add_sub_cancel]

theorem chr_val {c : Byte} (hlo : 33 ≤ c.toNat) (hhi : c.toNat ≤ 117) : chr (val c) = c := by
  apply BitVec.eq_of_toNat_eq
  rw [chr_toNat, val_val hhi, Nat.sub_add_cancel hlo]

/-- Settles O2, digit by digit from the quotients of `digits`; the sum is exact because the last quotient is below 85. -/
theorem digitsAreTheBase85Expansion : Obligations.DigitsAreTheBase85Expansion := fun w =>
  ⟨digits_g0_val w, digits_g1_val w, digits_g2_val w, digits_g3_val w, digits_g4_val w, digitSum_digits w, digits_g0_le w⟩

/-- Settles O3: each turn of `Fold` reduces modulo 2^32, and the sum of a word's own digits is the word. -/
theorem foldIsTheSumModulo : Obligations.FoldIsTheSumModulo := by
  refine ⟨fold_toNat, fun w => ⟨fold_digits w, ?_⟩⟩
  rw [digitSum_digits]
  exact w.isLt

/-- Settles O1: `pack` is the sum by weight, `unpack` its four bytes, and each undoes the other. -/
theorem packIsBigEndian : Obligations.PackIsBigEndian :=
  ⟨fun b0 b1 b2 b3 => ⟨pack_toNat b0 b1 b2 b3, unpack_pack b0 b1 b2 b3⟩,
    fun w => ⟨rfl, unpack_eq_bytesOf w⟩,
    fun _ _ _ _ _ h => pack_of_unpack_eq h⟩

/-- Settles O4: both translations are exact on their ranges, so the shift by 33 cancels either way. -/
theorem chrAndValAreInverse : Obligations.ChrAndValAreInverse := by
  refine ⟨fun g => ⟨chr_toNat g, ?_, ?_, val_chr g⟩, fun c hlo hhi => ⟨val_val hhi, chr_val hlo hhi⟩⟩
  · rw [chr_toNat]
    omega
  · have hg := g.isLt
    rw [chr_toNat]
    omega

end Sys2Proof.Machine
end


section
/-! PROOFS. The operation map: the rows of 10_state R42 and R43 hold exactly where the decoder selects the operation. -/

namespace Sys2Proof

/-! The character classes (30_encoding R100), by the conditions of the rows of 10_state R43 -/

theorem classify_eq_tilde {c : Byte} : classify c = .tilde ↔ c = 126 := by
  unfold classify
  split_ifs <;> simp_all

theorem classify_eq_ws {c : Byte} : classify c = .ws ↔ c = 9 ∨ c = 10 ∨ c = 13 ∨ c = 32 := by
  unfold classify
  split_ifs with htilde <;> simp_all

theorem classify_eq_z {c : Byte} : classify c = .z ↔ c = 122 := by
  unfold classify
  split_ifs with _ hws <;> simp_all
  rintro rfl
  simp at hws

/-- The digit characters are those above and below which no other class reaches. -/
theorem classify_eq_digit {c : Byte} : classify c = .digit ↔ 33 ≤ c.toNat ∧ c.toNat ≤ 117 := by
  change _ ↔ Config.chLo ≤ c ∧ c ≤ Config.chHi
  unfold classify
  split_ifs with htilde hws hz hdigit
  · subst htilde; decide
  · obtain rfl | rfl | rfl | rfl := hws <;> decide
  · subst hz; decide
  · exact iff_of_true rfl hdigit
  · exact iff_of_false (by decide) hdigit

theorem classify_eq_other {c : Byte} : classify c = .other ↔
    c ≠ 126 ∧ ¬ (c = 9 ∨ c = 10 ∨ c = 13 ∨ c = 32) ∧ c ≠ 122 ∧ ¬ (33 ≤ c.toNat ∧ c.toNat ≤ 117) := by
  rw [ne_eq, ne_eq, ← classify_eq_tilde, ← classify_eq_ws, ← classify_eq_z, ← classify_eq_digit]
  cases classify c <;> simp

namespace Machine

theorem pack_eq_zero_iff {b0 b1 b2 b3 : Byte} : pack b0 b1 b2 b3 = 0 ↔ b0 = 0 ∧ b1 = 0 ∧ b2 = 0 ∧ b3 = 0 := by
  simp only [BitVec.toNat_eq, pack_toNat, packSum, BitVec.ofNat_eq_ofNat, BitVec.toNat_ofNat]
  omega

/-! What an agent's decoder selects, by its sequencing register and head token -/

theorem decodeToken_peekBits_eq_op {f : Token → Instr} {src : Source} {i : Instr} :
    decodeToken f src.peekBits = .op i ↔ ∃ t, src.peek = some t ∧ f t = i := by
  rw [decodeToken_peekBits]
  cases src.peek <;> simp

/-- 30_encoding R102. -/
theorem select_enc_eq_op {s : State} {i : Instr} : s.select .enc = .op i ↔
    (s.enc.phase = .hdr ∧ .eHdr = i)
    ∨ (s.enc.phase = .body
      ∧ ∃ t, s.enc.src.peek = some t ∧ decodeBody s.enc.n s.enc.grp.b0 s.enc.grp.b1 s.enc.grp.b2 t = i) := by
  unfold State.select Enc.selector
  cases s.enc.phase <;> simp [decode, decodeToken_peekBits_eq_op]

/-- 30_encoding R103. -/
theorem select_dec_eq_op {s : State} {i : Instr} : s.select .dec = .op i ↔
    (s.dec.state = .seek ∧ ∃ t, s.dec.src.peek = some t ∧ decodeSeek t = i)
    ∨ (s.dec.state = .lt ∧ ∃ t, s.dec.src.peek = some t ∧ decodeLt t = i)
    ∨ (s.dec.state = .pay ∧ ∃ t, s.dec.src.peek = some t ∧ decodePay s.dec.k t = i)
    ∨ (s.dec.state = .tilde ∧ ∃ t, s.dec.src.peek = some t ∧ decodeTilde t = i) := by
  unfold State.select Dec.selector
  cases s.dec.state <;> simp [decode, decodeToken_peekBits_eq_op]

/-! The row of a selected operation holds -/

theorem enabled_decodeBody {s : State} {t : Token} (hp : s.enc.phase = .body) (ht : s.enc.src.peek = some t) :
    enabled (decodeBody s.enc.n s.enc.grp.b0 s.enc.grp.b1 s.enc.grp.b2 t) s = true := by
  unfold decodeBody
  split
  · split
    next hn => exact decide_eq_true ⟨hp, ht, hn⟩
    next hn => exact decide_eq_true ⟨hp, ht, hn⟩
  · split
    next hn => exact decide_eq_true ⟨hp, ht, hn⟩
    next hn =>
      have hn3 : s.enc.n = 3 := by omega
      split
      next hz =>
        have hw := pack_eq_zero_iff.mpr hz
        obtain ⟨-, -, -, rfl⟩ := hz
        exact decide_eq_true ⟨hp, ht, hn3, hw⟩
      next hz => exact decide_eq_true ⟨hp, ht, hn3, mt pack_eq_zero_iff.mp hz⟩

theorem enabled_decodeSeek {s : State} {t : Token} (hp : s.dec.state = .seek) (ht : s.dec.src.peek = some t) :
    enabled (decodeSeek t) s = true := by
  unfold decodeSeek
  split
  · exact decide_eq_true ⟨hp, ht⟩
  · split
    next hc =>
      subst hc
      exact decide_eq_true ⟨hp, ht⟩
    next hc => exact decide_eq_true ⟨hp, ht, hc⟩

theorem enabled_decodeLt {s : State} {t : Token} (hp : s.dec.state = .lt) (ht : s.dec.src.peek = some t) :
    enabled (decodeLt t) s = true := by
  unfold decodeLt
  split
  · exact decide_eq_true ⟨hp, ht, by decide⟩
  · split
    next hc =>
      subst hc
      exact decide_eq_true ⟨hp, ht⟩
    next hc => exact decide_eq_true ⟨hp, ht, mt Token.byte.inj hc⟩

theorem enabled_decodePay {s : State} {t : Token} (hp : s.dec.state = .pay) (ht : s.dec.src.peek = some t) :
    enabled (decodePay s.dec.k t) s = true := by
  unfold decodePay
  split
  · exact decide_eq_true ⟨hp, ht⟩
  · split
    next hc => exact decide_eq_true ⟨hp, classify_eq_tilde.mp hc ▸ ht⟩
    next hc => exact decide_eq_true ⟨hp, ht, classify_eq_ws.mp hc⟩
    next hc =>
      have hz := classify_eq_z.mp hc ▸ ht
      split
      next hk => exact decide_eq_true ⟨hp, hz, hk⟩
      next hk => exact decide_eq_true ⟨hp, hz, hk⟩
    next hc => exact decide_eq_true ⟨hp, ht, classify_eq_digit.mp hc⟩
    next hc => exact decide_eq_true ⟨hp, ht, classify_eq_other.mp hc⟩

theorem enabled_decodeTilde {s : State} {t : Token} (hp : s.dec.state = .tilde) (ht : s.dec.src.peek = some t) :
    enabled (decodeTilde t) s = true := by
  unfold decodeTilde
  split
  · exact decide_eq_true ⟨hp, ht, by decide⟩
  · split
    next hc =>
      subst hc
      exact decide_eq_true ⟨hp, ht⟩
    next hc => exact decide_eq_true ⟨hp, ht, mt Token.byte.inj hc⟩

theorem enabled_of_select {s : State} {a : Agent} {i : Instr} (h : s.select a = .op i) : enabled i s = true := by
  cases a with
  | enc =>
    obtain ⟨hp, rfl⟩ | ⟨hp, t, ht, rfl⟩ := select_enc_eq_op.mp h
    · exact decide_eq_true hp
    · exact enabled_decodeBody hp ht
  | dec =>
    obtain ⟨hp, t, ht, rfl⟩ | ⟨hp, t, ht, rfl⟩ | ⟨hp, t, ht, rfl⟩ | ⟨hp, t, ht, rfl⟩ := select_dec_eq_op.mp h
    · exact enabled_decodeSeek hp ht
    · exact enabled_decodeLt hp ht
    · exact enabled_decodePay hp ht
    · exact enabled_decodeTilde hp ht

/-! An operation whose row holds is the one selected -/

section
variable {s : State} {t : Token} {i : Instr}

theorem select_of_body (hp : s.enc.phase = .body) (ht : s.enc.src.peek = some t)
    (hi : decodeBody s.enc.n s.enc.grp.b0 s.enc.grp.b1 s.enc.grp.b2 t = i) : s.select .enc = .op i :=
  select_enc_eq_op.mpr (.inr ⟨hp, t, ht, hi⟩)

theorem select_of_seek (hp : s.dec.state = .seek) (ht : s.dec.src.peek = some t) (hi : decodeSeek t = i) :
    s.select .dec = .op i :=
  select_dec_eq_op.mpr (.inl ⟨hp, t, ht, hi⟩)

theorem select_of_lt (hp : s.dec.state = .lt) (ht : s.dec.src.peek = some t) (hi : decodeLt t = i) :
    s.select .dec = .op i :=
  select_dec_eq_op.mpr (.inr (.inl ⟨hp, t, ht, hi⟩))

theorem select_of_pay (hp : s.dec.state = .pay) (ht : s.dec.src.peek = some t) (hi : decodePay s.dec.k t = i) :
    s.select .dec = .op i :=
  select_dec_eq_op.mpr (.inr (.inr (.inl ⟨hp, t, ht, hi⟩)))

theorem select_of_tilde (hp : s.dec.state = .tilde) (ht : s.dec.src.peek = some t) (hi : decodeTilde t = i) :
    s.select .dec = .op i :=
  select_dec_eq_op.mpr (.inr (.inr (.inr ⟨hp, t, ht, hi⟩)))

end

theorem select_of_enabled {s : State} {i : Instr} (h : enabled i s = true) : s.select i.agent = .op i := by
  cases i with
  | eHdr => exact select_enc_eq_op.mpr (.inl ⟨of_decide_eq_true h, rfl⟩)
  | eBuf b =>
    obtain ⟨hp, ht, hn⟩ := of_decide_eq_true h
    exact select_of_body hp ht (if_pos hn)
  | eGrp b =>
    obtain ⟨hp, ht, hn, hw⟩ := of_decide_eq_true h
    exact select_of_body hp ht (by rw [ne_eq, pack_eq_zero_iff] at hw; simp only [decodeBody, hn, if_neg hw]; rfl)
  | eGrpz =>
    obtain ⟨hp, ht, hn, hw⟩ := of_decide_eq_true h
    exact select_of_body hp ht (by simp [decodeBody, hn, pack_eq_zero_iff.mp hw])
  | eEndp =>
    obtain ⟨hp, ht, hn⟩ := of_decide_eq_true h
    exact select_of_body hp ht (if_neg hn)
  | eEnd0 =>
    obtain ⟨hp, ht, hn⟩ := of_decide_eq_true h
    exact select_of_body hp ht (if_pos hn)
  | dSkip c =>
    obtain ⟨hp, ht, hc⟩ := of_decide_eq_true h
    exact select_of_seek hp ht (if_neg hc)
  | dLt =>
    obtain ⟨hp, ht⟩ := of_decide_eq_true h
    exact select_of_seek hp ht rfl
  | dEofs =>
    obtain ⟨hp, ht⟩ := of_decide_eq_true h
    exact select_of_seek hp ht rfl
  | dHdr =>
    obtain ⟨hp, ht⟩ := of_decide_eq_true h
    exact select_of_lt hp ht rfl
  | dLtmiss t =>
    obtain ⟨hp, ht, hne⟩ := of_decide_eq_true h
    refine select_of_lt hp ht ?_
    cases t with
    | eos => rfl
    | byte c => exact if_neg (by simpa using hne)
  | dTilde =>
    obtain ⟨hp, ht⟩ := of_decide_eq_true h
    exact select_of_pay hp ht rfl
  | dWs c =>
    obtain ⟨hp, ht, hc⟩ := of_decide_eq_true h
    exact select_of_pay hp ht (by simp only [decodePay, classify_eq_ws.mpr hc])
  | dZ =>
    obtain ⟨hp, ht, hk⟩ := of_decide_eq_true h
    exact select_of_pay hp ht (if_pos hk)
  | dZerr =>
    obtain ⟨hp, ht, hk⟩ := of_decide_eq_true h
    exact select_of_pay hp ht (if_neg hk)
  | dDigit c =>
    obtain ⟨hp, ht, hc⟩ := of_decide_eq_true h
    exact select_of_pay hp ht (by simp only [decodePay, classify_eq_digit.mpr hc])
  | dBad c =>
    obtain ⟨hp, ht, hc⟩ := of_decide_eq_true h
    exact select_of_pay hp ht (by simp only [decodePay, classify_eq_other.mpr hc])
  | dEofp =>
    obtain ⟨hp, ht⟩ := of_decide_eq_true h
    exact select_of_pay hp ht rfl
  | dTrailer =>
    obtain ⟨hp, ht⟩ := of_decide_eq_true h
    exact select_of_tilde hp ht rfl
  | dTildebad t =>
    obtain ⟨hp, ht, hne⟩ := of_decide_eq_true h
    refine select_of_tilde hp ht ?_
    cases t with
    | eos => rfl
    | byte c => exact if_neg (by simpa using hne)

/-- Settles O11: an operation whose row holds is the one selected, and the row of the one selected holds. -/
theorem enabledExactlyWhereDecoded : Obligations.EnabledExactlyWhereDecoded :=
  fun _ _ => ⟨select_of_enabled, enabled_of_select⟩

end Machine
end Sys2Proof
end


section
/-! PROOFS. What an operation leaves to the other agent, and what every operation does to its own agent's streams
(10_state R20; 20_memory R71, R72). -/

namespace Sys2Proof.Machine

/-! The row of an operation reads its own agent alone (10_state R20) -/

@[simp] theorem enabled_replace_dec {i : Instr} (hi : i.agent = .enc) (s : State) (d : Dec) :
    enabled i { s with dec := d } = enabled i s := by
  cases i <;> cases hi <;> rfl

@[simp] theorem enabled_replace_enc {i : Instr} (hi : i.agent = .dec) (s : State) (e : Enc) :
    enabled i { s with enc := e } = enabled i s := by
  cases i <;> cases hi <;> rfl

theorem exec_of_enabled_enc {i : Instr} {s : State} (hi : i.agent = .enc) (h : enabled i s = true) :
    exec i s = .next { s with enc := encEffect i s.enc } := by
  rw [exec_eq, if_pos h, decEffect_of_enc hi]

theorem exec_of_enabled_dec {i : Instr} {s : State} (hi : i.agent = .dec) (h : enabled i s = true) :
    exec i s = .next { s with dec := decEffect i s.dec } := by
  rw [exec_eq, if_pos h, encEffect_of_dec hi]

/-- Settles O27: the row and the effect of an operation are those of its own agent. -/
theorem operationsLeaveTheOtherAgentAlone : Obligations.OperationsLeaveTheOtherAgentAlone := by
  intro i s t h
  obtain ⟨hen, rfl⟩ := (exec_eq_next i s t).mp h
  refine ⟨(decEffect_of_enc · _), (encEffect_of_dec · _), rfl, fun hi d => ?_, fun hi e => ?_⟩
  · exact exec_of_enabled_enc hi ((enabled_replace_dec hi s d).trans hen)
  · exact exec_of_enabled_dec hi ((enabled_replace_enc hi s e).trans hen)

/-! The source: one byte popped or none -/

theorem encEffect_src {i : Instr} (hi : i.agent = .enc) (e : Enc) :
    (encEffect i e).src = if i.pops then e.src.pop else e.src := by
  cases i <;> cases hi <;> simp [encEffect, effEHdr, effEBuf, effEGrp, effEGrpz, effEEndp, effEEnd0, Instr.pops]

@[simp] theorem effDDigit_src (c : Byte) (d : Dec) : (effDDigit c d).src = d.src.pop := by
  unfold effDDigit
  split <;> rfl

theorem decEffect_src {i : Instr} (hi : i.agent = .dec) (d : Dec) :
    (decEffect i d).src = if i.pops then d.src.pop else d.src := by
  cases i <;> cases hi <;>
    simp [decEffect, effDSkip, effDLt, effDEofs, effDHdr, effDLtmiss, effDTilde, effDWs, effDZ, effDZerr, effDBad,
      effDEofp, effDTrailer, effDTildebad, Instr.pops]

/-- An operation that pops has a byte at the head of its agent's source (20_memory R71). -/
theorem peek_of_enabled_pops {i : Instr} {s : State} (h : enabled i s = true) (hp : i.pops = true) :
    ∃ b, (s.source i.agent).peek = some (.byte b) := by
  cases i <;> cases hp <;> simp only [enabled, decide_eq_true_eq] at h <;> simp [Instr.agent, h]

theorem pos_lt_of_enabled_pops {i : Instr} {s : State} (h : enabled i s = true) (hp : i.pops = true) :
    (s.source i.agent).pos < (s.source i.agent).bytes.length := by
  obtain ⟨b, hb⟩ := peek_of_enabled_pops h hp
  exact (List.getElem?_eq_some_iff.mp ((Source.peek_eq_byte _ b).mp hb)).1

theorem encEffect_pos_le {i : Instr} {s : State} (hi : i.agent = .enc) (h : enabled i s = true)
    (hpos : s.enc.src.pos ≤ s.enc.src.bytes.length) :
    (encEffect i s.enc).src.pos ≤ (encEffect i s.enc).src.bytes.length := by
  rw [encEffect_src hi]
  split
  next hp =>
    have hlt := pos_lt_of_enabled_pops h hp
    rw [hi] at hlt
    exact hlt
  next => exact hpos

theorem decEffect_pos_le {i : Instr} {s : State} (hi : i.agent = .dec) (h : enabled i s = true)
    (hpos : s.dec.src.pos ≤ s.dec.src.bytes.length) :
    (decEffect i s.dec).src.pos ≤ (decEffect i s.dec).src.bytes.length := by
  rw [decEffect_src hi]
  split
  next hp =>
    have hlt := pos_lt_of_enabled_pops h hp
    rw [hi] at hlt
    exact hlt
  next => exact hpos

/-! The sink: bytes appended, none presented (20_memory R72) -/

theorem Enc.prefix_putChar (e : Enc) (c : Byte) : e.sink.bytes <+: (e.putChar c).sink.bytes := by
  rw [Enc.putChar_eq]
  split <;> exact List.prefix_append _ _

theorem Enc.prefix_putChars (e : Enc) (cs : List Byte) : e.sink.bytes <+: (e.putChars cs).sink.bytes := by
  induction cs generalizing e with
  | nil => exact List.prefix_refl _
  | cons c cs ih => exact (e.prefix_putChar c).trans (ih (e.putChar c))

theorem Dec.prefix_flush (d : Dec) : d.sink.bytes <+: d.flush.sink.bytes := by
  rw [Dec.flush_eq]
  split
  · exact List.prefix_append _ _
  · exact List.prefix_refl _

theorem prefix_encEffect (i : Instr) (e : Enc) : e.sink.bytes <+: (encEffect i e).sink.bytes := by
  cases i with
  | eHdr => exact List.prefix_append _ _
  | eGrp b =>
    simp only [encEffect, effEGrp]
    exact Enc.prefix_putChars { e.pop with grp := e.grp.put 3 b } _
  | eGrpz =>
    simp only [encEffect, effEGrpz]
    exact Enc.prefix_putChar { e.pop with grp := e.grp.put 3 0 } _
  | eEndp => exact (e.prefix_putChars _).trans (List.prefix_append _ _)
  | eEnd0 => exact List.prefix_append _ _
  | _ => exact List.prefix_refl _

theorem prefix_effDDigit (c : Byte) (d : Dec) : d.sink.bytes <+: (effDDigit c d).sink.bytes := by
  unfold effDDigit
  split
  · exact List.prefix_append _ _
  · exact List.prefix_refl _

theorem prefix_decEffect (i : Instr) (d : Dec) : d.sink.bytes <+: (decEffect i d).sink.bytes := by
  cases i with
  | dZ => exact List.prefix_append _ _
  | dDigit c => exact prefix_effDDigit c d
  | dEofp => exact d.prefix_flush
  | dTrailer => exact d.pop.prefix_flush
  | _ => exact List.prefix_refl _

@[simp] theorem encEffect_sent (i : Instr) (e : Enc) : (encEffect i e).sink.sent = e.sink.sent := by
  cases i <;> simp [encEffect, effEHdr, effEBuf, effEGrp, effEGrpz, effEEndp, effEEnd0]

@[simp] theorem effDDigit_sent (c : Byte) (d : Dec) : (effDDigit c d).sink.sent = d.sink.sent := by
  unfold effDDigit
  split <;> rfl

@[simp] theorem decEffect_sent (i : Instr) (d : Dec) : (decEffect i d).sink.sent = d.sink.sent := by
  cases i <;>
    simp [decEffect, effDSkip, effDLt, effDEofs, effDHdr, effDLtmiss, effDTilde, effDWs, effDZ, effDZerr, effDBad,
      effDEofp, effDTrailer, effDTildebad]

/-! The reset line -/

@[simp] theorem encEffect_rst (i : Instr) (e : Enc) : (encEffect i e).rst = e.rst := by
  cases i <;> simp [encEffect, effEHdr, effEBuf, effEGrp, effEGrpz, effEEndp, effEEnd0]

@[simp] theorem effDDigit_rst (c : Byte) (d : Dec) : (effDDigit c d).rst = d.rst := by
  unfold effDDigit
  split <;> rfl

@[simp] theorem decEffect_rst (i : Instr) (d : Dec) : (decEffect i d).rst = d.rst := by
  cases i <;>
    simp [decEffect, effDSkip, effDLt, effDEofs, effDHdr, effDLtmiss, effDTilde, effDWs, effDZ, effDZerr, effDBad,
      effDEofp, effDTrailer, effDTildebad]

end Sys2Proof.Machine
end


section
/-! PROOFS. One move as a function of the one agent it belongs to, and what a step can do to each agent (10_state R20;
20_memory R60, R62, R66; 70_reset R230, R234). -/

namespace Sys2Proof.Machine

/-! A move on its agent -/

/-- What a turn does to ENC. -/
def Enc.turn (e : Enc) : Enc :=
  if e.rst then e.takeReset
  else match decode e.selector e.src.peekBits with
    | .op i => if i.pops && e.sink.backlog then e else encEffect i e
    | .idle _ => e

/-- What a turn does to DEC. -/
def Dec.turn (d : Dec) : Dec :=
  if d.rst then d.takeReset
  else match decode d.selector d.src.peekBits with
    | .op i => if i.pops && d.sink.backlog then d else decEffect i d
    | .idle _ => d

/-- What a move of ENC does to ENC. -/
def Enc.move (e : Enc) : Move → Enc
  | .turn _ => e.turn
  | .port _ => if e.rst then e.takeReset else { e with sink := e.sink.present }
  | .setReset _ level => if level then { e.takeReset with rst := true } else { e with rst := false }
  | .offer _ b => { e with src := e.src.offer b }
  | .close _ => { e with src := e.src.close }
  | .reopen _ => if e.rst then { e with src := e.src.reopen } else e

/-- What a move of DEC does to DEC. -/
def Dec.move (d : Dec) : Move → Dec
  | .turn _ => d.turn
  | .port _ => if d.rst then d.takeReset else { d with sink := d.sink.present }
  | .setReset _ level => if level then { d.takeReset with rst := true } else { d with rst := false }
  | .offer _ b => { d with src := d.src.offer b }
  | .close _ => { d with src := d.src.close }
  | .reopen _ => if d.rst then { d with src := d.src.reopen } else d

theorem decodeBody_agent (n : Fin 4) (b0 b1 b2 : Byte) (t : Token) : (decodeBody n b0 b1 b2 t).agent = .enc := by
  unfold decodeBody
  split <;> split_ifs <;> rfl

theorem decodeSeek_agent (t : Token) : (decodeSeek t).agent = .dec := by
  unfold decodeSeek
  split
  · rfl
  · split_ifs <;> rfl

theorem decodeLt_agent (t : Token) : (decodeLt t).agent = .dec := by
  unfold decodeLt
  split
  · rfl
  · split_ifs <;> rfl

theorem decodePay_agent (k : Fin 5) (t : Token) : (decodePay k t).agent = .dec := by
  unfold decodePay
  split
  · rfl
  · split
    case h_3 => split_ifs <;> rfl
    all_goals rfl

theorem decodeTilde_agent (t : Token) : (decodeTilde t).agent = .dec := by
  unfold decodeTilde
  split
  · rfl
  · split_ifs <;> rfl

/-- The operation selected is one of the agent's own. -/
theorem agent_of_select {s : State} {a : Agent} {i : Instr} (h : s.select a = .op i) : i.agent = a := by
  cases a with
  | enc =>
    obtain ⟨-, rfl⟩ | ⟨-, t, -, rfl⟩ := select_enc_eq_op.mp h
    · rfl
    · exact decodeBody_agent _ _ _ _ t
  | dec =>
    obtain ⟨-, t, -, rfl⟩ | ⟨-, t, -, rfl⟩ | ⟨-, t, -, rfl⟩ | ⟨-, t, -, rfl⟩ := select_dec_eq_op.mp h
    · exact decodeSeek_agent t
    · exact decodeLt_agent t
    · exact decodePay_agent _ t
    · exact decodeTilde_agent t

theorem exec_of_select_enc {s : State} {i : Instr} (h : s.select .enc = .op i) :
    exec i s = .next { s with enc := encEffect i s.enc } :=
  exec_of_enabled_enc (agent_of_select h) (enabled_of_select h)

theorem exec_of_select_dec {s : State} {i : Instr} (h : s.select .dec = .op i) :
    exec i s = .next { s with dec := decEffect i s.dec } :=
  exec_of_enabled_dec (agent_of_select h) (enabled_of_select h)

theorem takeTurn_enc (s : State) : takeTurn .enc s = .next { s with enc := s.enc.turn } := by
  cases hr : s.enc.rst with
  | true =>
    simp only [takeTurn, Enc.turn, State.inReset_enc, hr, if_true]
    rfl
  | false =>
    cases hs : s.select .enc with
    | idle why =>
      have hd : decode s.enc.selector s.enc.src.peekBits = .idle why := hs
      simp [takeTurn, Enc.turn, hr, hs, hd]
    | op i =>
      have hd : decode s.enc.selector s.enc.src.peekBits = .op i := hs
      cases hb : i.pops && s.enc.sink.backlog <;> simp [takeTurn, Enc.turn, hr, hs, hd, hb, exec_of_select_enc hs]

theorem takeTurn_dec (s : State) : takeTurn .dec s = .next { s with dec := s.dec.turn } := by
  cases hr : s.dec.rst with
  | true =>
    simp only [takeTurn, Dec.turn, State.inReset_dec, hr, if_true]
    rfl
  | false =>
    cases hs : s.select .dec with
    | idle why =>
      have hd : decode s.dec.selector s.dec.src.peekBits = .idle why := hs
      simp [takeTurn, Dec.turn, hr, hs, hd]
    | op i =>
      have hd : decode s.dec.selector s.dec.src.peekBits = .op i := hs
      cases hb : i.pops && s.dec.sink.backlog <;> simp [takeTurn, Dec.turn, hr, hs, hd, hb, exec_of_select_dec hs]

/-- A move of ENC completes, and changes ENC by what stands in ENC alone (10_state R20). -/
theorem runMove_enc {m : Move} (hm : m.agent = .enc) (s : State) :
    runMove m s = .next { s with enc := s.enc.move m } := by
  cases m <;> cases hm
  case turn => exact takeTurn_enc s
  case port => cases hr : s.enc.rst <;> simp [runMove, takePort, State.takeReset, State.present, Enc.move, hr]
  case setReset level => simp only [runMove, State.setReset_enc, Enc.move]
  case offer b => rfl
  case close => rfl
  case reopen => cases hr : s.enc.rst <;> simp [runMove, State.onSource, Enc.move, hr]

/-- A move of DEC completes, and changes DEC by what stands in DEC alone (10_state R20). -/
theorem runMove_dec {m : Move} (hm : m.agent = .dec) (s : State) :
    runMove m s = .next { s with dec := s.dec.move m } := by
  cases m <;> cases hm
  case turn => exact takeTurn_dec s
  case port => cases hr : s.dec.rst <;> simp [runMove, takePort, State.takeReset, State.present, Dec.move, hr]
  case setReset level => simp only [runMove, State.setReset_dec, Dec.move]
  case offer b => rfl
  case close => rfl
  case reopen => cases hr : s.dec.rst <;> simp [runMove, State.onSource, Dec.move, hr]

/-- A listed move of ENC, as a whole next state. -/
theorem step_cons_enc {s : State} {m : Move} {ms : List Move} (h : s.moves = m :: ms) (hm : m.agent = .enc) :
    step s = .next { s with moves := ms, enc := s.enc.move m } := by
  rw [step_cons s m ms h, runMove_enc hm]

/-- A listed move of DEC, as a whole next state. -/
theorem step_cons_dec {s : State} {m : Move} {ms : List Move} (h : s.moves = m :: ms) (hm : m.agent = .dec) :
    step s = .next { s with moves := ms, dec := s.dec.move m } := by
  rw [step_cons s m ms h, runMove_dec hm]

/-- Settles O49: the next state of a listed move is a function of its agent alone, and keeps the other agent. -/
theorem agentsCannotSeeEachOther : Obligations.AgentsCannotSeeEachOther := by
  intro s s' t t' m ms ms' hs hs' ht ht'
  constructor
  · intro hm heq
    obtain rfl := Host.Outcome.next.inj ((step_cons_enc hs hm).symm.trans ht)
    obtain rfl := Host.Outcome.next.inj ((step_cons_enc hs' hm).symm.trans ht')
    exact ⟨congrArg (Enc.move · m) heq, rfl, rfl⟩
  · intro hm heq
    obtain rfl := Host.Outcome.next.inj ((step_cons_dec hs hm).symm.trans ht)
    obtain rfl := Host.Outcome.next.inj ((step_cons_dec hs' hm).symm.trans ht')
    exact ⟨congrArg (Dec.move · m) heq, rfl, rfl⟩

/-- Settles O32: a turn runs what is selected, which is enabled and so completes, unless it has to wait for the port. -/
theorem stepRunsTheDecodedOperation : Obligations.StepRunsTheDecodedOperation := by
  intro s a ms i hs hr hi
  have hstep : step s = if i.pops && s.backlog a then .next { s with moves := ms } else exec i { s with moves := ms } := by
    rw [step_cons s _ ms hs]
    simp only [runMove, takeTurn, State.inReset_moves, State.select_moves, State.backlog_moves, hr, hi]
    rfl
  constructor
  · intro hgo
    have hen : enabled i { s with moves := ms } = true := (enabled_moves i s ms).trans (enabled_of_select hi)
    have hexec := (exec_eq_next i { s with moves := ms } _).mpr ⟨hen, rfl⟩
    refine ⟨_, hexec, ?_⟩
    rw [hstep, if_neg (by simpa [imp_iff_not_or] using hgo), hexec]
  · intro hp hb
    rw [hstep, if_pos (by simp [hp, hb])]

/-! Every step is one move, or none -/

theorem step_cases {s t : State} (h : step s = .next t) :
    t = s ∨ ∃ m ms, runMove m { s with moves := ms } = .next t := by
  cases hs : s.moves with
  | cons m ms => exact .inr ⟨m, ms, (step_cons s m ms hs).symm.trans h⟩
  | nil =>
    rw [step_nil s hs] at h
    cases hd : defaultMove s with
    | none =>
      rw [hd] at h
      exact .inl (Host.Outcome.next.inj h).symm
    | some m =>
      rw [hd] at h
      exact .inr ⟨m, s.moves, h⟩

theorem step_enc_eq {s t : State} (h : step s = .next t) : t.enc = s.enc ∨ ∃ m, t.enc = s.enc.move m := by
  obtain rfl | ⟨m, ms, hm⟩ := step_cases h
  · exact .inl rfl
  · cases ha : m.agent with
    | enc =>
      obtain rfl := Host.Outcome.next.inj ((runMove_enc ha _).symm.trans hm)
      exact .inr ⟨m, rfl⟩
    | dec =>
      obtain rfl := Host.Outcome.next.inj ((runMove_dec ha _).symm.trans hm)
      exact .inl rfl

theorem step_dec_eq {s t : State} (h : step s = .next t) : t.dec = s.dec ∨ ∃ m, t.dec = s.dec.move m := by
  obtain rfl | ⟨m, ms, hm⟩ := step_cases h
  · exact .inl rfl
  · cases ha : m.agent with
    | enc =>
      obtain rfl := Host.Outcome.next.inj ((runMove_enc ha _).symm.trans hm)
      exact .inl rfl
    | dec =>
      obtain rfl := Host.Outcome.next.inj ((runMove_dec ha _).symm.trans hm)
      exact .inr ⟨m, rfl⟩

/-! What a step can do to an agent: an operation, a reset, or a change of its streams that leaves its registers -/

/-- What the host may do to a source between operations: present more bytes until it has signalled `END` (20_memory R62). -/
structure Source.Fed (src src' : Source) : Prop where
  pos   : src'.pos = src.pos
  bytes : ∃ more, src'.bytes = src.bytes ++ more ∧ (src.closed = true → more = [])

/-- What the port may do to a sink between operations: present bytes that wait (20_memory R66). -/
structure Sink.Presented (k k' : Sink) : Prop where
  bytes   : k'.bytes = k.bytes
  sent_ge : k.sent ≤ k'.sent
  sent_le : k.sent ≤ k.bytes.length → k'.sent ≤ k'.bytes.length

theorem Source.Fed.refl (src : Source) : src.Fed src := ⟨rfl, [], by simp⟩
theorem Source.fed_close (src : Source) : src.Fed src.close := ⟨rfl, [], by simp⟩
theorem Source.fed_reopen (src : Source) : src.Fed src.reopen := ⟨rfl, [], by simp⟩
theorem Source.fed_offer (src : Source) (b : Byte) : src.Fed (src.offer b) := by
  refine ⟨src.offer_pos b, if src.closed then [] else [b], ?_, fun h => if_pos h⟩
  rw [Source.offer_bytes]
  split <;> simp

theorem Sink.Presented.refl (k : Sink) : k.Presented k := ⟨rfl, le_rfl, id⟩
theorem Sink.presented_present (k : Sink) : k.Presented k.present := by
  unfold Sink.present Sink.backlog
  split
  next h => exact ⟨rfl, Nat.le_succ _, fun _ => of_decide_eq_true h⟩
  next => exact .refl k

/-- What one step can make of ENC. `END` is withdrawn in reset only (20_memory R62). -/
inductive EncChange (s : State) : Enc → Prop
  /-- an operation whose row holds -/
  | op (i : Instr) (hi : i.agent = .enc) (henabled : enabled i s = true) (hrst : s.enc.rst = false) :
      EncChange s (encEffect i s.enc)
  /-- the reset values, the line high -/
  | reset : EncChange s { s.enc.takeReset with rst := true }
  /-- the host or the port, or nothing: the registers stay -/
  | streams (src : Source) (sink : Sink) (rst : Bool) (hsrc : s.enc.src.Fed src) (hsink : s.enc.sink.Presented sink)
      (hrst : rst = true → s.enc.rst = true)
      (hclosed : s.enc.rst = false → s.enc.src.closed = true → src.closed = true) :
      EncChange s { s.enc with src := src, sink := sink, rst := rst }

/-- What one step can make of DEC. `END` is withdrawn in reset only (20_memory R62). -/
inductive DecChange (s : State) : Dec → Prop
  /-- an operation whose row holds -/
  | op (i : Instr) (hi : i.agent = .dec) (henabled : enabled i s = true) (hrst : s.dec.rst = false) :
      DecChange s (decEffect i s.dec)
  /-- the reset values, the line high -/
  | reset : DecChange s { s.dec.takeReset with rst := true }
  /-- the host or the port, or nothing: the registers stay -/
  | streams (src : Source) (sink : Sink) (rst : Bool) (hsrc : s.dec.src.Fed src) (hsink : s.dec.sink.Presented sink)
      (hrst : rst = true → s.dec.rst = true)
      (hclosed : s.dec.rst = false → s.dec.src.closed = true → src.closed = true) :
      DecChange s { s.dec with src := src, sink := sink, rst := rst }

theorem EncChange.refl (s : State) : EncChange s s.enc :=
  .streams s.enc.src s.enc.sink s.enc.rst (.refl _) (.refl _) id fun _ => id

theorem DecChange.refl (s : State) : DecChange s s.dec :=
  .streams s.dec.src s.dec.sink s.dec.rst (.refl _) (.refl _) id fun _ => id

/-- An agent whose line is high takes its reset values with the line still high. -/
theorem EncChange.takeReset {s : State} (h : s.enc.rst = true) : EncChange s s.enc.takeReset := by
  have hreset : EncChange s { s.enc.takeReset with rst := true } := .reset
  rwa [← h] at hreset

theorem DecChange.takeReset {s : State} (h : s.dec.rst = true) : DecChange s s.dec.takeReset := by
  have hreset : DecChange s { s.dec.takeReset with rst := true } := .reset
  rwa [← h] at hreset

theorem encChange_turn (s : State) : EncChange s s.enc.turn := by
  unfold Enc.turn
  split
  next h => exact .takeReset h
  next h =>
    split
    next i hs =>
      have hsel : s.select .enc = .op i := hs
      split
      · exact .refl s
      · exact .op i (agent_of_select hsel) (enabled_of_select hsel) (by simpa using h)
    next => exact .refl s

theorem decChange_turn (s : State) : DecChange s s.dec.turn := by
  unfold Dec.turn
  split
  next h => exact .takeReset h
  next h =>
    split
    next i hs =>
      have hsel : s.select .dec = .op i := hs
      split
      · exact .refl s
      · exact .op i (agent_of_select hsel) (enabled_of_select hsel) (by simpa using h)
    next => exact .refl s

theorem encChange_move (s : State) (m : Move) : EncChange s (s.enc.move m) := by
  cases m with
  | turn a => exact encChange_turn s
  | port a =>
    simp only [Enc.move]
    split
    next h => exact .takeReset h
    next => exact .streams _ _ _ (.refl _) s.enc.sink.presented_present id fun _ => id
  | setReset a level =>
    cases level with
    | true => exact .reset
    | false => exact .streams _ _ _ (.refl _) (.refl _) nofun fun _ => id
  | offer a b =>
    exact .streams _ _ _ (s.enc.src.fed_offer b) (.refl _) id fun _ hc => (s.enc.src.offer_closed b).trans hc
  | close a => exact .streams _ _ _ s.enc.src.fed_close (.refl _) id fun _ _ => rfl
  | reopen a =>
    simp only [Enc.move]
    split
    next h => exact .streams _ _ _ s.enc.src.fed_reopen (.refl _) id fun hr => absurd (h.symm.trans hr) nofun
    next => exact .refl s

theorem decChange_move (s : State) (m : Move) : DecChange s (s.dec.move m) := by
  cases m with
  | turn a => exact decChange_turn s
  | port a =>
    simp only [Dec.move]
    split
    next h => exact .takeReset h
    next => exact .streams _ _ _ (.refl _) s.dec.sink.presented_present id fun _ => id
  | setReset a level =>
    cases level with
    | true => exact .reset
    | false => exact .streams _ _ _ (.refl _) (.refl _) nofun fun _ => id
  | offer a b =>
    exact .streams _ _ _ (s.dec.src.fed_offer b) (.refl _) id fun _ hc => (s.dec.src.offer_closed b).trans hc
  | close a => exact .streams _ _ _ s.dec.src.fed_close (.refl _) id fun _ _ => rfl
  | reopen a =>
    simp only [Dec.move]
    split
    next h => exact .streams _ _ _ s.dec.src.fed_reopen (.refl _) id fun hr => absurd (h.symm.trans hr) nofun
    next => exact .refl s

/-- Everything a step can do to ENC. -/
theorem step_enc {s t : State} (h : step s = .next t) : EncChange s t.enc := by
  obtain he | ⟨m, he⟩ := step_enc_eq h <;> rw [he]
  · exact .refl s
  · exact encChange_move s m

/-- Everything a step can do to DEC. -/
theorem step_dec {s t : State} (h : step s = .next t) : DecChange s t.dec := by
  obtain hd | ⟨m, hd⟩ := step_dec_eq h <;> rw [hd]
  · exact .refl s
  · exact decChange_move s m

end Sys2Proof.Machine
end


section
/-! PROOFS. The reset state, the status outputs, and the invariant of the block over a step (10_state R31, R44, R45, R51,
R52). -/

namespace Sys2Proof.Machine

/-- Settles O36: each field of `State.reset` is the value R51 states. -/
theorem resetStateIsAsStated : Obligations.ResetStateIsAsStated :=
  ⟨rfl, rfl, rfl, rfl, rfl, rfl, rfl, rfl, rfl, rfl, rfl, rfl, rfl⟩

/-- Settles O41: the outputs are comparisons of one register each, and the six values of `d_state` part into the three. -/
theorem statusOutputsAreExclusive : Obligations.StatusOutputsAreExclusive := by
  intro s
  refine ⟨decide_eq_true_iff, decide_eq_true_iff, decide_eq_true_iff, ?_, ?_, ?_, ?_⟩
  · unfold dErrCode; cases s.dec.err <;> decide
  · unfold dErrCode; cases s.dec.err <;> decide
  · unfold dErrCode; cases s.dec.err <;> decide
  · unfold dRunning dDone dError; cases s.dec.state <;> decide

/-! The reset values -/

theorem Enc.takeReset_atReset (e : Enc) : e.takeReset.AtReset := ⟨rfl, rfl, rfl, rfl, rfl, rfl⟩

theorem Dec.takeReset_atReset (d : Dec) : d.takeReset.AtReset := ⟨rfl, rfl, rfl, rfl, rfl, rfl⟩

theorem Enc.AtReset.inv {e : Enc} (h : e.AtReset) : e.Inv where
  col_le := by simp [h.col]
  col_zero _ := h.phase
  hdr _ := ⟨h.n, h.col, by rw [h.sink]⟩
  pos_le := by simp [h.pos]
  sent_le := by simp [h.sink]
  reset _ := h

theorem Dec.AtReset.inv {d : Dec} (h : d.AtReset) : d.Inv where
  seeking _ := ⟨h.k, h.err, by rw [h.sink]⟩
  err_iff := by simp [h.err, h.state]
  whole _ := by simp [h.sink]
  pos_le := by simp [h.pos]
  sent_le := by simp [h.sink]
  reset _ := h

/-- The reset values do not mention the reset line. -/
theorem Enc.AtReset.setRst {e : Enc} (h : e.AtReset) (level : Bool) : ({ e with rst := level } : Enc).AtReset :=
  ⟨h.phase, h.n, h.col, h.grp, h.sink, h.pos⟩

theorem Dec.AtReset.setRst {d : Dec} (h : d.AtReset) (level : Bool) : ({ d with rst := level } : Dec).AtReset :=
  ⟨h.state, h.k, h.dig, h.err, h.sink, h.pos⟩

/-- Settles O50: both agents stand at their reset values. -/
theorem invariantHoldsAtReset : Obligations.InvariantHoldsAtReset :=
  ⟨Enc.AtReset.inv ⟨rfl, rfl, rfl, rfl, rfl, rfl⟩, Dec.AtReset.inv ⟨rfl, rfl, rfl, rfl, rfl, rfl⟩⟩

/-! `d_err` (10_state R44) -/

theorem effDDigit_err (c : Byte) (d : Dec) : (effDDigit c d).err = d.err := by
  unfold effDDigit
  split <;> rfl

@[simp] theorem effDDigit_state (c : Byte) (d : Dec) : (effDDigit c d).state = d.state := by
  unfold effDDigit
  split <;> rfl

/-- An operation keeps `d_err` and stays out of `D_ERR`, or it raises: DEC is then in `D_ERR`, with its sink and digits as
they were (60_exceptions R204). -/
theorem decEffect_err (i : Instr) {d : Dec} (hrun : d.state ≠ .err) :
    ((decEffect i d).err = d.err ∧ (decEffect i d).state ≠ .err)
    ∨ ((decEffect i d).err ≠ .none ∧ (decEffect i d).state = .err ∧ (decEffect i d).sink = d.sink
      ∧ (decEffect i d).k = d.k ∧ (decEffect i d).dig = d.dig) := by
  cases i with
  | dZerr | dBad c | dTildebad t => exact .inr ⟨nofun, rfl, rfl, rfl, rfl⟩
  | dDigit c => exact .inl ⟨effDDigit_err c d, (effDDigit_state c d).trans_ne hrun⟩
  | dEofp => exact .inl ⟨d.flush_err, nofun⟩
  | dTrailer => exact .inl ⟨d.pop.flush_err, nofun⟩
  | dLt | dEofs | dHdr | dLtmiss t | dTilde => exact .inl ⟨rfl, nofun⟩
  | _ => exact .inl ⟨rfl, hrun⟩

/-- An operation of DEC starts from a state that is not terminal (10_state R43). -/
theorem not_terminal_of_enabled {s : State} {i : Instr} (hi : i.agent = .dec) (h : enabled i s = true) :
    s.dec.state ≠ .done ∧ s.dec.state ≠ .err := by
  have hsel := select_of_enabled h
  rw [hi] at hsel
  obtain ⟨hp, -⟩ | ⟨hp, -⟩ | ⟨hp, -⟩ | ⟨hp, -⟩ := select_dec_eq_op.mp hsel <;> rw [hp] <;> decide

theorem Dec.Inv.err_eq_none {d : Dec} (h : d.Inv) (hs : d.state ≠ .err) : d.err = .none :=
  not_not.mp (mt h.err_iff.mp hs)

/-- Of all that a step can do to DEC, only a raise and reset write `d_err`. -/
theorem DecChange.err_changed {s : State} {d : Dec} (h : DecChange s d) (hinv : s.dec.Inv) (hne : d.err ≠ s.dec.err) :
    (s.dec.err = .none ∧ d.state = .err ∧ d.sink = s.dec.sink ∧ d.k = s.dec.k ∧ d.dig = s.dec.dig)
    ∨ (d.AtReset ∧ d.rst = true) := by
  cases h with
  | op i hi henabled hrst =>
    have hrun := (not_terminal_of_enabled hi henabled).2
    obtain ⟨hkept, -⟩ | ⟨-, hraised⟩ := decEffect_err i hrun
    · exact absurd hkept hne
    · exact .inl ⟨hinv.err_eq_none hrun, hraised⟩
  | reset => exact .inr ⟨s.dec.takeReset_atReset.setRst true, rfl⟩
  | streams src sink rst => exact absurd rfl hne

/-- Settles O43, from what a step can do to DEC. -/
theorem errorCauseIsSetOnceAndKept : Obligations.ErrorCauseIsSetOnceAndKept :=
  fun _ _ hinv hstep hne => (step_dec hstep).err_changed hinv hne

/-! The invariant of ENC -/

/-- `PutChar` leaves 1 to 75 characters on the line, whatever stood there (40_encoder R131). -/
theorem Enc.putChar_col_bounds (e : Enc) (c : Byte) : 1 ≤ (e.putChar c).col.toNat ∧ (e.putChar c).col.toNat ≤ 75 := by
  rw [Enc.putChar_eq]
  split
  next => simp
  next h => bv_omega

theorem Enc.putChars_col_bounds {e : Enc} (cs : List Byte) (h : 1 ≤ e.col.toNat ∧ e.col.toNat ≤ 75) :
    1 ≤ (e.putChars cs).col.toNat ∧ (e.putChars cs).col.toNat ≤ 75 := by
  induction cs generalizing e with
  | nil => exact h
  | cons c cs ih => exact ih (e.putChar_col_bounds c)

/-- Behind the header the line holds 1 to 75 characters (10_state R52 item 2). -/
theorem Enc.Inv.col_bounds {e : Enc} (h : e.Inv) (hp : e.phase ≠ .hdr) : 1 ≤ e.col.toNat ∧ e.col.toNat ≤ 75 := by
  refine ⟨Nat.one_le_iff_ne_zero.mpr fun h0 => hp (h.col_zero ?_), h.col_le⟩
  exact BitVec.eq_of_toNat_eq h0

/-- An operation of ENC other than E.HDR starts in `E_BODY` (10_state R42). -/
theorem phase_body_of_enabled {s : State} {i : Instr} (hi : i.agent = .enc) (hne : i ≠ .eHdr) (h : enabled i s = true) :
    s.enc.phase = .body := by
  have hsel := select_of_enabled h
  rw [hi] at hsel
  obtain ⟨-, heq⟩ | ⟨hp, -⟩ := select_enc_eq_op.mp hsel
  · exact absurd heq.symm hne
  · exact hp

/-- An operation of ENC ends behind the header, with 1 to 75 characters on the line. -/
theorem encEffect_past_header {s : State} {i : Instr} (hi : i.agent = .enc) (henabled : enabled i s = true)
    (hinv : s.enc.Inv) :
    (encEffect i s.enc).phase ≠ .hdr
    ∧ 1 ≤ (encEffect i s.enc).col.toNat ∧ (encEffect i s.enc).col.toNat ≤ 75 := by
  have hpast (hne : i ≠ .eHdr) : s.enc.phase ≠ .hdr ∧ 1 ≤ s.enc.col.toNat ∧ s.enc.col.toNat ≤ 75 := by
    have hphase : s.enc.phase ≠ .hdr := by
      rw [phase_body_of_enabled hi hne henabled]
      decide
    exact ⟨hphase, hinv.col_bounds hphase⟩
  cases i with
  | eHdr => simp [encEffect, effEHdr]
  | eBuf b => exact hpast nofun
  | eGrp b =>
    obtain ⟨hphase, hcol⟩ := hpast nofun
    simp only [encEffect, effEGrp, Enc.putChars_phase]
    exact ⟨hphase, Enc.putChars_col_bounds (e := { s.enc.pop with grp := s.enc.grp.put 3 b }) _ hcol⟩
  | eGrpz =>
    obtain ⟨hphase, -⟩ := hpast nofun
    simp only [encEffect, effEGrpz, Enc.putChar_phase]
    exact ⟨hphase, Enc.putChar_col_bounds { s.enc.pop with grp := s.enc.grp.put 3 0 } _⟩
  | eEndp => exact ⟨nofun, Enc.putChars_col_bounds _ (hpast nofun).2⟩
  | eEnd0 => exact ⟨nofun, (hpast nofun).2⟩
  | _ => cases hi

theorem encEffect_inv {s : State} {i : Instr} (hi : i.agent = .enc) (henabled : enabled i s = true)
    (hrst : s.enc.rst = false) (hinv : s.enc.Inv) : (encEffect i s.enc).Inv := by
  obtain ⟨hphase, hcol_pos, hcol_le⟩ := encEffect_past_header hi henabled hinv
  exact {
    col_le := hcol_le
    col_zero := fun h0 => by simp [h0] at hcol_pos
    hdr := fun h => absurd h hphase
    pos_le := encEffect_pos_le hi henabled hinv.pos_le
    sent_le := by
      rw [encEffect_sent]
      exact hinv.sent_le.trans (prefix_encEffect i s.enc).length_le
    reset := fun h => by simp [hrst] at h }

/-! Streams that the host or the port moves -/

theorem Source.Fed.pos_le {src src' : Source} (h : src.Fed src') (hle : src.pos ≤ src.bytes.length) :
    src'.pos ≤ src'.bytes.length := by
  obtain ⟨more, hbytes, -⟩ := h.bytes
  rw [h.pos, hbytes, List.length_append]
  omega

theorem Sink.Presented.eq_empty {sink : Sink} (h : Sink.Presented ⟨[], 0⟩ sink) : sink = ⟨[], 0⟩ := by
  obtain ⟨bytes, sent⟩ := sink
  obtain rfl : bytes = [] := h.bytes
  obtain rfl : sent = 0 := Nat.le_zero.mp (h.sent_le le_rfl)
  rfl

theorem Enc.Inv.streams {e : Enc} {src : Source} {sink : Sink} {rst : Bool} (hinv : e.Inv) (hsrc : e.src.Fed src)
    (hsink : e.sink.Presented sink) (hrst : rst = true → e.rst = true) :
    ({ e with src := src, sink := sink, rst := rst } : Enc).Inv where
  col_le := hinv.col_le
  col_zero := hinv.col_zero
  hdr h := by
    obtain ⟨hn, hcol, hbytes⟩ := hinv.hdr h
    exact ⟨hn, hcol, hsink.bytes.trans hbytes⟩
  pos_le := hsrc.pos_le hinv.pos_le
  sent_le := hsink.sent_le hinv.sent_le
  reset h := by
    obtain ⟨hphase, hn, hcol, hgrp, hempty, hpos⟩ := hinv.reset (hrst h)
    rw [hempty] at hsink
    exact ⟨hphase, hn, hcol, hgrp, hsink.eq_empty, hsrc.pos.trans hpos⟩

theorem Dec.Inv.streams {d : Dec} {src : Source} {sink : Sink} {rst : Bool} (hinv : d.Inv) (hsrc : d.src.Fed src)
    (hsink : d.sink.Presented sink) (hrst : rst = true → d.rst = true) :
    ({ d with src := src, sink := sink, rst := rst } : Dec).Inv where
  seeking h := by
    obtain ⟨hk, herr, hbytes⟩ := hinv.seeking h
    exact ⟨hk, herr, hsink.bytes.trans hbytes⟩
  err_iff := hinv.err_iff
  whole h := hsink.bytes ▸ hinv.whole h
  pos_le := hsrc.pos_le hinv.pos_le
  sent_le := hsink.sent_le hinv.sent_le
  reset h := by
    obtain ⟨hstate, hk, hdig, herr, hempty, hpos⟩ := hinv.reset (hrst h)
    rw [hempty] at hsink
    exact ⟨hstate, hk, hdig, herr, hsink.eq_empty, hsrc.pos.trans hpos⟩

theorem EncChange.inv {s : State} {e : Enc} (h : EncChange s e) (hinv : s.enc.Inv) : e.Inv := by
  cases h with
  | op i hi henabled hrst => exact encEffect_inv hi henabled hrst hinv
  | reset => exact (s.enc.takeReset_atReset.setRst true).inv
  | streams src sink rst hsrc hsink hrst => exact hinv.streams hsrc hsink hrst

/-! The invariant of DEC -/

/-- An operation after which DEC still seeks the header started there, and wrote nothing (41_decoder R162, R163, R166). -/
theorem decEffect_seeking {s : State} {i : Instr} (henabled : enabled i s = true)
    (hi : i.agent = .dec) (h : (decEffect i s.dec).state = .seek ∨ (decEffect i s.dec).state = .lt) :
    (s.dec.state = .seek ∨ s.dec.state = .lt)
    ∧ (decEffect i s.dec).k = s.dec.k ∧ (decEffect i s.dec).err = s.dec.err ∧ (decEffect i s.dec).sink = s.dec.sink := by
  cases i with
  | dSkip c => exact ⟨h, rfl, rfl, rfl⟩
  | dLt => exact ⟨.inl (of_decide_eq_true henabled).1, rfl, rfl, rfl⟩
  | dLtmiss t => exact ⟨.inr (of_decide_eq_true henabled).1, rfl, rfl, rfl⟩
  | dWs c | dZ =>
    have hpay : s.dec.state = .pay := (of_decide_eq_true henabled).1
    exact absurd h (by simp [decEffect, effDWs, effDZ, hpay])
  | dDigit c =>
    have hpay : s.dec.state = .pay := (of_decide_eq_true henabled).1
    exact absurd h (by simp [decEffect, hpay])
  | dEofs | dHdr | dTilde | dZerr | dBad c | dEofp | dTrailer | dTildebad t => obtain h | h := h <;> cases h
  | _ => cases hi

/-- Outside its last operations DEC writes four bytes or none (10_state R52 item 8). -/
theorem decEffect_whole (i : Instr) {d : Dec} (h : 4 ∣ d.sink.bytes.length) (hne : (decEffect i d).state ≠ .done) :
    4 ∣ (decEffect i d).sink.bytes.length := by
  cases i with
  | dZ => simpa [decEffect, effDZ] using h
  | dDigit c =>
    simp only [decEffect, effDDigit]
    split
    · simpa [unpack] using h
    · exact h
  | dEofp | dTrailer => exact absurd rfl hne
  | _ => exact h

theorem decEffect_inv {s : State} {i : Instr} (hi : i.agent = .dec) (henabled : enabled i s = true)
    (hrst : s.dec.rst = false) (hinv : s.dec.Inv) : (decEffect i s.dec).Inv := by
  obtain ⟨hdone, herr⟩ := not_terminal_of_enabled hi henabled
  exact {
    seeking := fun h => by
      obtain ⟨hstart, hk, herr', hsink⟩ := decEffect_seeking henabled hi h
      rw [hk, herr', hsink]
      exact hinv.seeking hstart
    err_iff := by
      obtain ⟨hkept, hstate⟩ | ⟨hraised, hstate, -⟩ := decEffect_err i herr
      · exact iff_of_false (not_not.mpr (hkept.trans (hinv.err_eq_none herr))) hstate
      · exact iff_of_true hraised hstate
    whole := decEffect_whole i (hinv.whole hdone)
    pos_le := decEffect_pos_le hi henabled hinv.pos_le
    sent_le := by
      rw [decEffect_sent]
      exact hinv.sent_le.trans (prefix_decEffect i s.dec).length_le
    reset := fun h => by simp [hrst] at h }

theorem DecChange.inv {s : State} {d : Dec} (h : DecChange s d) (hinv : s.dec.Inv) : d.Inv := by
  cases h with
  | op i hi henabled hrst => exact decEffect_inv hi henabled hrst hinv
  | reset => exact (s.dec.takeReset_atReset.setRst true).inv
  | streams src sink rst hsrc hsink hrst => exact hinv.streams hsrc hsink hrst

/-- Settles O51: an operation, a reset and a move of the streams each keep the invariant of the agent they belong to. -/
theorem stepKeepsTheInvariant : Obligations.StepKeepsTheInvariant :=
  fun _ _ hinv hstep => ⟨(step_enc hstep).inv hinv.1, (step_dec hstep).inv hinv.2⟩

end Sys2Proof.Machine
end


section
/-! PROOFS. The streams of the two agents: what an operation, a move of the host and a turn of a port do to a source and to a
sink, stated for either agent (20_memory R60 to R77). -/

namespace Sys2Proof.Machine

/-! The accessors of an agent after a change of one source, or of the list of moves -/

@[simp] theorem State.source_moves (s : State) (a : Agent) (ms : List Move) :
    ({ s with moves := ms } : State).source a = s.source a := by cases a <;> rfl

@[simp] theorem State.sink_moves (s : State) (a : Agent) (ms : List Move) :
    ({ s with moves := ms } : State).sink a = s.sink a := by cases a <;> rfl

@[simp] theorem State.source_onSource (s : State) (a : Agent) (f : Source → Source) :
    (s.onSource a f).source a = f (s.source a) := by cases a <;> rfl

@[simp] theorem State.sink_onSource (s : State) (a b : Agent) (f : Source → Source) :
    (s.onSource a f).sink b = s.sink b := by cases a <;> cases b <;> rfl

/-- What an agent has selected depends on its source through the head token alone (30_encoding R107). -/
theorem State.select_onSource {s : State} {a : Agent} {f : Source → Source}
    (h : (f (s.source a)).peek = (s.source a).peek) : (s.onSource a f).select a = s.select a := by
  have hbits : (f (s.source a)).peekBits = (s.source a).peekBits := congrArg (Option.map Token.toBits) h
  cases a with
  | enc => exact congrArg (decode s.enc.selector) hbits
  | dec => exact congrArg (decode s.dec.selector) hbits

/-! The head token (20_memory R60) -/

/-- A token at the head stays there when the host presents more bytes behind it, or signals `END` (20_memory R62). -/
theorem Source.Fed.peek {src src' : Source} {tok : Token} (h : src.Fed src')
    (hclosed : src.closed = true → src'.closed = true) (hpeek : src.peek = some tok) : src'.peek = some tok := by
  obtain ⟨more, hbytes, hmore⟩ := h.bytes
  cases tok with
  | byte b =>
    rw [Source.peek_eq_byte] at hpeek ⊢
    have hlt := (List.getElem?_eq_some_iff.mp hpeek).1
    rw [h.pos, hbytes, List.getElem?_append_left hlt, hpeek]
  | eos =>
    rw [Source.peek_eq_eos] at hpeek ⊢
    obtain ⟨hused, hend⟩ := hpeek
    rw [h.pos, hbytes, hmore hend, List.append_nil]
    exact ⟨hused, hclosed hend⟩

/-- The head token survives a reset: nothing is popped (70_reset R240 item 6; log entry 5). -/
@[simp] theorem Source.peek_rebase (src : Source) : src.rebase.peek = src.peek := by
  unfold Source.peek
  rw [Source.rebase_bytes, Source.rebase_pos, Source.rebase_closed, List.getElem?_drop, Nat.add_zero]

/-- The byte offered to a source that is used up and open is its head token (20_memory R60). -/
theorem Source.peek_offer_of_used_up {src : Source} {b : Byte} (hopen : src.closed = false)
    (hpos : src.pos = src.bytes.length) : (src.offer b).peek = some (.byte b) := by
  rw [Source.peek_eq_byte, Source.offer_pos, Source.offer_bytes, hopen, hpos]
  simp

/-- An operation whose row holds stands for the token at the head of its agent's source; E.HDR examines none
(10_state R42, R43). -/
theorem peek_of_enabled {i : Instr} {s : State} (h : enabled i s = true) (hne : i ≠ .eHdr) :
    (s.source i.agent).peek = some i.token := by
  cases i with
  | eHdr => exact absurd rfl hne
  | _ =>
    simp only [enabled, decide_eq_true_eq] at h
    simp [Instr.agent, Instr.token, h]

/-- `END` is never popped (20_memory R65). -/
theorem pops_eq_false_of_peek_eos {i : Instr} {s : State} {a : Agent} (hi : i.agent = a) (h : enabled i s = true)
    (hpeek : (s.source a).peek = some .eos) : i.pops = false := by
  by_contra hp
  obtain ⟨b, hb⟩ := peek_of_enabled_pops h (eq_true_of_ne_false hp)
  rw [hi] at hb
  exact absurd (hb.symm.trans hpeek) nofun

/-! What an operation does to the streams (20_memory R71, R72) -/

section
variable {i : Instr} {s t : State} (h : exec i s = .next t)
include h

/-- 20_memory R71. -/
theorem exec_source (a : Agent) :
    t.source a = if i.agent = a ∧ i.pops = true then (s.source a).pop else s.source a := by
  obtain ⟨-, rfl⟩ := (exec_eq_next i s t).mp h
  cases a <;> cases hi : i.agent
  case enc.enc | dec.dec => simp [encEffect_src, decEffect_src, hi]
  case enc.dec | dec.enc => simp [encEffect_of_dec, decEffect_of_enc, hi]

theorem exec_inReset (a : Agent) : t.inReset a = s.inReset a := by
  obtain ⟨-, rfl⟩ := (exec_eq_next i s t).mp h
  cases a <;> simp

theorem exec_sent (a : Agent) : (t.sink a).sent = (s.sink a).sent := by
  obtain ⟨-, rfl⟩ := (exec_eq_next i s t).mp h
  cases a <;> simp

theorem exec_prefix_sink (a : Agent) : (s.sink a).bytes <+: (t.sink a).bytes := by
  obtain ⟨-, rfl⟩ := (exec_eq_next i s t).mp h
  cases a with
  | enc => exact prefix_encEffect i s.enc
  | dec => exact prefix_decEffect i s.dec

/-- 20_memory R72: the other agent's sink is not written. -/
theorem exec_sink_of_agent_ne {a : Agent} (hi : i.agent ≠ a) : t.sink a = s.sink a := by
  obtain ⟨-, rfl⟩ := (exec_eq_next i s t).mp h
  cases a <;> cases hi' : i.agent
  case enc.enc | dec.dec => exact absurd hi' hi
  case enc.dec | dec.enc => simp [encEffect_of_dec, decEffect_of_enc, hi']

/-- An operation that writes `d_err` raises, and a raise emits nothing (60_exceptions R204). -/
theorem exec_sink_of_err_ne (herr : t.dec.err ≠ s.dec.err) (a : Agent) : t.sink a = s.sink a := by
  obtain ⟨hen, rfl⟩ := (exec_eq_next i s t).mp h
  cases hi : i.agent with
  | enc => exact absurd (congrArg Dec.err (decEffect_of_enc hi s.dec)) herr
  | dec =>
    obtain ⟨hkept, -⟩ | ⟨-, -, hsink, -⟩ := decEffect_err i (not_terminal_of_enabled hi hen).2
    · exact absurd hkept herr
    · cases a with
      | enc => exact congrArg Enc.sink (encEffect_of_dec hi s.enc)
      | dec => exact hsink

/-- What an operation that pops leaves behind it: the read position just after the byte it stands for. -/
theorem exec_popped {b : Byte} (hp : i.pops = true) (hb : i.token = .byte b) :
    (t.source i.agent).pos = (s.source i.agent).pos + 1
    ∧ (t.source i.agent).bytes[(s.source i.agent).pos]? = some b := by
  have hpeek := peek_of_enabled ((exec_eq_next i s t).mp h).1 (by rintro rfl; cases hp)
  rw [hb, Source.peek_eq_byte] at hpeek
  rw [exec_source h, if_pos ⟨rfl, hp⟩]
  exact ⟨rfl, hpeek⟩

/-- An operation that pops nothing leaves the head token it stands for at the head. -/
theorem exec_kept (hp : i.pops = false) (hne : i ≠ .eHdr) :
    t.source i.agent = s.source i.agent ∧ (t.source i.agent).peek = some i.token := by
  have hsrc : t.source i.agent = s.source i.agent := by rw [exec_source h, if_neg (by simp [hp])]
  exact ⟨hsrc, hsrc ▸ peek_of_enabled ((exec_eq_next i s t).mp h).1 hne⟩

/-- An operation taken on `END` leaves its agent's source used up (20_memory R73). -/
theorem exec_used_up (hp : i.pops = false) (htok : i.token = .eos)
    (hle : (s.source i.agent).pos ≤ (s.source i.agent).bytes.length) :
    (t.source i.agent).pos = (t.source i.agent).bytes.length := by
  obtain ⟨hsrc, hpeek⟩ := exec_kept h hp (by rintro rfl; cases htok)
  rw [htok, Source.peek_eq_eos, hsrc] at hpeek
  rw [hsrc]
  exact hle.antisymm hpeek.1

end

/-- Settles O28: the source after an operation is the source before, popped once or not at all. -/
theorem operationsPopAtMostOneByte : Obligations.OperationsPopAtMostOneByte := by
  intro i s t h a
  have hpopped : i.agent = a → i.pops = true → (s.source a).pos < (s.source a).bytes.length := by
    rintro rfl hp
    exact pos_lt_of_enabled_pops ((exec_eq_next i s t).mp h).1 hp
  refine ⟨?_, ?_, ?_, exec_inReset h a, hpopped⟩ <;> rw [exec_source h a] <;> split <;> rfl

/-- Settles O47: each ending operation pops the character it stands for, or leaves the token it stands for at the head. -/
theorem endOfRunLeavesTheSourceHere : Obligations.EndOfRunLeavesTheSourceHere := by
  intro i s t h henc hdec
  refine ⟨?_, ?_, ?_, ?_, ?_, ?_⟩
  · rintro (rfl | rfl) <;> exact exec_used_up h rfl rfl henc
  · rintro (rfl | rfl) <;> exact exec_used_up h rfl rfl hdec
  · rintro rfl
    exact exec_popped h rfl rfl
  · rintro rfl
    exact exec_popped h rfl rfl
  · rintro c rfl
    exact exec_popped h rfl rfl
  · rintro tok rfl
    obtain ⟨hsrc, hpeek⟩ := exec_kept h rfl nofun
    exact ⟨congrArg Source.pos hsrc, hpeek⟩

/-! How many bytes an operation appends (10_state R49 item 2) -/

/-- Characters put one after another are the characters with a line feed before each that finds the line full
(40_encoder R131). -/
theorem Enc.putChars_bytes (e : Enc) (cs : List Byte) :
    (e.putChars cs).sink.bytes = e.sink.bytes ++ wrapFrom e.col.toNat cs := by
  induction cs generalizing e with
  | nil => simp [wrapFrom]
  | cons c cs ih =>
    rw [Enc.putChars_cons, ih, Enc.putChar_eq, wrapFrom]
    by_cases hfull : (75 : BitVec 7) ≤ e.col
    · rw [if_pos hfull, if_pos (show 75 ≤ e.col.toNat from hfull)]
      simp
    · have hlt : ¬ 75 ≤ e.col.toNat := hfull
      have hnext : (e.col + 1).toNat = e.col.toNat + 1 :=
        BitVec.toNat_add_of_lt (show e.col.toNat + 1 < 2 ^ 7 by omega)
      rw [if_neg hfull, if_neg hlt, hnext]
      simp

/-- Characters that fit on the line are written without a line feed (40_encoder R131). -/
theorem wrapFrom_of_fits {col : Nat} {cs : List Byte} (h : col + cs.length ≤ 75) : wrapFrom col cs = cs := by
  induction cs generalizing col with
  | nil => rfl
  | cons c cs ih =>
    rw [List.length_cons] at h
    rw [wrapFrom, if_neg (by omega), ih (by omega)]

/-- Up to a line of characters meets at most one line feed (40_encoder R131). -/
theorem wrapFrom_length_le {cs : List Byte} (col : Nat) (h : cs.length ≤ 75) :
    (wrapFrom col cs).length ≤ cs.length + 1 := by
  induction cs generalizing col with
  | nil => exact Nat.zero_le _
  | cons c cs ih =>
    rw [List.length_cons] at h
    rw [wrapFrom]
    split
    · rw [wrapFrom_of_fits (by omega)]
      simp
    · have := ih (col + 1) (by omega)
      simpa using this

theorem Enc.putChars_length_le (e : Enc) {cs : List Byte} (h : cs.length ≤ 75) :
    (e.putChars cs).sink.bytes.length ≤ e.sink.bytes.length + cs.length + 1 := by
  rw [Enc.putChars_bytes, List.length_append]
  have := wrapFrom_length_le e.col.toNat h
  omega

@[simp] theorem chars_length (w : Word) : (chars w).length = 5 := rfl

@[simp] theorem unpack_length (w : Word) : (unpack w).length = 4 := rfl

/-- The most is E.ENDP's: four characters, a line feed and the trailer (40_encoder R136). -/
theorem encEffect_length_le (i : Instr) (e : Enc) :
    (encEffect i e).sink.bytes.length ≤ e.sink.bytes.length + 7 := by
  cases i with
  | eHdr | eEnd0 => simp [encEffect, effEHdr, effEEnd0]
  | eGrp b =>
    simp only [encEffect, effEGrp]
    refine (Enc.putChars_length_le { e.pop with grp := e.grp.put 3 b } ?_).trans ?_ <;> simp
  | eGrpz =>
    simp only [encEffect, effEGrpz]
    refine (Enc.putChars_length_le { e.pop with grp := e.grp.put 3 0 } (cs := [Config.chZ]) ?_).trans ?_ <;> simp
  | eEndp =>
    have hcs : ((chars (e.grp.word e.n)).take (e.n.val + 1)).length ≤ 4 := by
      rw [List.length_take]
      omega
    have hput := e.putChars_length_le (hcs.trans (by decide))
    simp only [encEffect, effEEndp, Enc.emit_sink, Sink.emit_bytes, List.length_append, List.length_cons,
      List.length_nil]
    omega
  | _ => exact Nat.le_add_right _ _

theorem Dec.flush_length_le (d : Dec) : d.flush.sink.bytes.length ≤ d.sink.bytes.length + 4 := by
  rw [Dec.flush_eq]
  split <;> simp

/-- The most is a whole word's four bytes (41_decoder R169, R170). -/
theorem decEffect_length_le (i : Instr) (d : Dec) :
    (decEffect i d).sink.bytes.length ≤ d.sink.bytes.length + 4 := by
  cases i with
  | dZ => simp [decEffect, effDZ]
  | dDigit c =>
    simp only [decEffect, effDDigit]
    split <;> simp
  | dEofp => exact d.flush_length_le
  | dTrailer => exact d.pop.flush_length_le
  | _ => exact Nat.le_add_right _ _

theorem exec_length_le {i : Instr} {s t : State} (h : exec i s = .next t) (a : Agent) :
    (t.sink a).bytes.length ≤ (s.sink a).bytes.length + 7 := by
  obtain ⟨-, rfl⟩ := (exec_eq_next i s t).mp h
  cases a with
  | enc => exact encEffect_length_le i s.enc
  | dec => exact (decEffect_length_le i s.dec).trans (by simp)

/-- Settles O29: the sink after begins with the sink before and is at most seven bytes longer, and it is the same where the
operation is the other agent's or raises. -/
theorem operationsOnlyAppendToTheSink : Obligations.OperationsOnlyAppendToTheSink := by
  intro i s t h a
  obtain ⟨out, hout⟩ := exec_prefix_sink h a
  have hnil : t.sink a = s.sink a → out = [] := fun hsame => by
    rw [hsame] at hout
    exact List.append_right_eq_self.mp hout
  have hlen := exec_length_le h a
  rw [← hout, List.length_append] at hlen
  exact ⟨exec_sent h a, out, hout.symm, by omega, fun hi => hnil (exec_sink_of_agent_ne h hi),
    fun herr => hnil (exec_sink_of_err_ne h herr a)⟩

/-! What a step does to the streams -/

/-- `END` at the head of ENC's source is not popped and, out of reset, not withdrawn (20_memory R62, R65). -/
theorem EncChange.peek_eos {s : State} {e : Enc} (h : EncChange s e) (hrst : s.enc.rst = false)
    (hpeek : s.enc.src.peek = some .eos) : e.src.peek = some .eos := by
  cases h with
  | op i hi henabled _ =>
    rw [encEffect_src hi, pops_eq_false_of_peek_eos hi henabled hpeek]
    exact hpeek
  | reset => exact s.enc.src.peek_rebase.trans hpeek
  | streams src sink rst hsrc _ _ hclosed => exact hsrc.peek (hclosed hrst) hpeek

/-- `END` at the head of DEC's source is not popped and, out of reset, not withdrawn (20_memory R62, R65). -/
theorem DecChange.peek_eos {s : State} {d : Dec} (h : DecChange s d) (hrst : s.dec.rst = false)
    (hpeek : s.dec.src.peek = some .eos) : d.src.peek = some .eos := by
  cases h with
  | op i hi henabled _ =>
    rw [decEffect_src hi, pops_eq_false_of_peek_eos hi henabled hpeek]
    exact hpeek
  | reset => exact s.dec.src.peek_rebase.trans hpeek
  | streams src sink rst hsrc _ _ hclosed => exact hsrc.peek (hclosed hrst) hpeek

/-- Settles O39, from what a step can do to an agent. -/
theorem endOfSourcePersists : Obligations.EndOfSourcePersists := by
  intro s t a hstep hrst hpeek
  cases a with
  | enc => exact (step_enc hstep).peek_eos hrst hpeek
  | dec => exact (step_dec hstep).peek_eos hrst hpeek

/-- 20_memory R63, R64. -/
theorem EncChange.sink_grows {s : State} {e : Enc} (h : EncChange s e) :
    (∃ out, e.sink.bytes = s.enc.sink.bytes ++ out ∧ s.enc.sink.sent ≤ e.sink.sent)
    ∨ (e.AtReset ∧ e.rst = true) := by
  cases h with
  | op i _ _ _ =>
    obtain ⟨out, hout⟩ := prefix_encEffect i s.enc
    exact .inl ⟨out, hout.symm, (encEffect_sent i s.enc).ge⟩
  | reset => exact .inr ⟨s.enc.takeReset_atReset.setRst true, rfl⟩
  | streams src sink rst _ hsink _ _ => exact .inl ⟨[], by simp [hsink.bytes], hsink.sent_ge⟩

/-- 20_memory R63, R64. -/
theorem DecChange.sink_grows {s : State} {d : Dec} (h : DecChange s d) :
    (∃ out, d.sink.bytes = s.dec.sink.bytes ++ out ∧ s.dec.sink.sent ≤ d.sink.sent)
    ∨ (d.AtReset ∧ d.rst = true) := by
  cases h with
  | op i _ _ _ =>
    obtain ⟨out, hout⟩ := prefix_decEffect i s.dec
    exact .inl ⟨out, hout.symm, (decEffect_sent i s.dec).ge⟩
  | reset => exact .inr ⟨s.dec.takeReset_atReset.setRst true, rfl⟩
  | streams src sink rst _ hsink _ _ => exact .inl ⟨[], by simp [hsink.bytes], hsink.sent_ge⟩

/-- Settles O45, from what a step can do to each agent. -/
theorem sinksOnlyGrowUntilReset : Obligations.SinksOnlyGrowUntilReset :=
  fun _ _ hstep => ⟨(step_enc hstep).sink_grows, (step_dec hstep).sink_grows⟩

/-- Settles O48: a move of ENC replaces ENC by what stands in ENC alone, a move of DEC likewise, so both orders write the
same two agents. -/
theorem agentsCommute : Obligations.AgentsCommute := fun _ _ _ _ hm hn =>
  ⟨_, _, _, step_cons_enc rfl hm, step_cons_dec rfl hn, step_cons_dec rfl hn, step_cons_enc rfl hm⟩

/-! The host's moves (20_memory R62; log entry 2) -/

section
variable {s : State} {a : Agent} {ms : List Move}

theorem step_offer {b : Byte} (h : s.moves = .offer a b :: ms) :
    step s = .next (({ s with moves := ms } : State).onSource a (·.offer b)) :=
  step_cons s _ ms h

theorem step_close (h : s.moves = .close a :: ms) :
    step s = .next (({ s with moves := ms } : State).onSource a Source.close) :=
  step_cons s _ ms h

/-- Out of reset the host cannot withdraw `END` (20_memory R62). -/
theorem step_reopen_of_running (h : s.moves = .reopen a :: ms) (hrst : s.inReset a = false) :
    step s = .next { s with moves := ms } := by
  simp [step_cons s _ ms h, runMove, hrst]

end

/-- A change of a source that keeps its head token keeps all that its agent can see. -/
theorem onSource_holds_token {s : State} {a : Agent} {tok : Token} {f : Source → Source}
    (hpeek : (s.source a).peek = some tok) (hf : (f (s.source a)).peek = some tok) :
    ((s.onSource a f).source a).peek = some tok ∧ (s.onSource a f).sink a = s.sink a
    ∧ (s.onSource a f).select a = s.select a :=
  ⟨(congrArg Source.peek (s.source_onSource a f)).trans hf, s.sink_onSource a a f,
    State.select_onSource (hf.trans hpeek.symm)⟩

/-- Settles O38: a byte goes behind the head token, `END` behind all bytes, and out of reset `END` is not withdrawn. -/
theorem hostMovesHoldThePresentedToken : Obligations.HostMovesHoldThePresentedToken := by
  intro s m ms a tok hs hm hpeek
  have hpeek' : (({ s with moves := ms } : State).source a).peek = some tok := by rwa [State.source_moves]
  have hkept := fun f => onSource_holds_token (f := f) hpeek'
  simp only [State.source_moves, State.sink_moves, State.select_moves] at hkept
  obtain ⟨b, rfl⟩ | rfl | ⟨rfl, hrst⟩ := hm
  · refine ⟨_, step_offer hs, hkept (·.offer b) ?_⟩
    exact ((s.source a).fed_offer b).peek (Source.offer_closed _ b).trans hpeek
  · exact ⟨_, step_close hs, hkept Source.close ((s.source a).fed_close.peek (fun _ => rfl) hpeek)⟩
  · exact ⟨_, step_reopen_of_running hs hrst, hpeek', by simp, by simp⟩

theorem Source.offer_eq (src : Source) (b : Byte) :
    src.offer b = { src with bytes := if src.closed then src.bytes else src.bytes ++ [b] } := by
  unfold Source.offer
  split <;> rfl

/-- Settles O58: an offer and a close change one source, in its bytes and in `END`. -/
theorem hostMovesFeedTheSource : Obligations.HostMovesFeedTheSource := by
  refine ⟨fun s b ms h => ?_, fun s b ms h => ?_, fun s ms h => step_close h, fun s ms h => step_close h,
    fun s a b ms h hopen hpos => ⟨_, step_offer h, ?_⟩, fun s a ms h hused => ⟨_, step_close h, ?_⟩⟩
  · rw [step_offer h, ← Source.offer_eq]
    rfl
  · rw [step_offer h, ← Source.offer_eq]
    rfl
  · rw [State.source_onSource, State.source_moves]
    exact Source.peek_offer_of_used_up hopen hpos
  · rw [State.source_onSource, State.source_moves]
    exact (Source.peek_eq_eos _).mpr ⟨hused, rfl⟩

/-! The ports (20_memory R62, R66) -/

theorem Sink.present_eq (k : Sink) :
    k.present = { k with sent := if k.sent < k.bytes.length then k.sent + 1 else k.sent } := by
  unfold Sink.present Sink.backlog
  simp only [decide_eq_true_eq]
  split <;> rfl

theorem State.backlog_eq (s : State) (a : Agent) : s.backlog a = (s.sink a).backlog := by cases a <;> rfl

/-- Settles O35: out of reset a port's turn is `present`, and a byte at the place of the next one waits. -/
theorem portPresentsTheNextByte : Obligations.PortPresentsTheNextByte := by
  refine fun s ms => ⟨fun h hrst => ?_, fun h hrst => ?_, fun a b hb => ⟨?_, ?_⟩⟩
  · simp [step_cons_enc h rfl, Enc.move, hrst, Sink.present_eq]
  · simp [step_cons_dec h rfl, Dec.move, hrst, Sink.present_eq]
  · rw [outValid, State.backlog_eq]
    exact decide_eq_true (List.getElem?_eq_some_iff.mp hb).1
  · rw [outData, hb]
    rfl

/-- `x_in_pop` is asserted exactly where a turn pops: a popping operation selected has a byte at the head (20_memory R62,
R66; log entries 3, 5). -/
theorem inPop_iff {s : State} {a : Agent} : inPop s a = true ↔
    s.inReset a = false ∧ s.backlog a = false ∧ ∃ i, s.select a = .op i ∧ i.pops = true := by
  unfold inPop
  cases hs : s.select a with
  | idle why => simp
  | op i =>
    have hvalid : i.pops = true → inValid s a = true := fun hp => by
      obtain ⟨b, hb⟩ := peek_of_enabled_pops (enabled_of_select hs) hp
      rw [agent_of_select hs] at hb
      simp [inValid, hb]
    simp only [Bool.and_eq_true, Bool.not_eq_true', Decoded.op.injEq, exists_eq_left']
    exact ⟨fun ⟨⟨⟨_, hb⟩, hr⟩, hp⟩ => ⟨hr, hb, hp⟩, fun ⟨hr, hb, hp⟩ => ⟨⟨⟨hvalid hp, hb⟩, hr⟩, hp⟩⟩

/-- An agent that shows `x_in_pop` has a byte at the head of its source (20_memory R62). -/
theorem peek_of_inPop {s : State} {a : Agent} (h : inPop s a = true) : ∃ b, (s.source a).peek = some (.byte b) := by
  obtain ⟨-, -, i, hs, hp⟩ := inPop_iff.mp h
  have hpeek := peek_of_enabled_pops (enabled_of_select hs) hp
  rwa [agent_of_select hs] at hpeek

theorem inPop_enc_of_done {s : State} (h : s.enc.phase = .done) : inPop s .enc = false := by
  by_contra hp
  obtain ⟨-, -, i, hs, -⟩ := inPop_iff.mp (eq_true_of_ne_false hp)
  simp [select_enc_eq_op, h] at hs

theorem inPop_dec_of_terminal {s : State} (h : s.dec.state = .done ∨ s.dec.state = .err) : inPop s .dec = false := by
  by_contra hp
  obtain ⟨-, -, i, hs, -⟩ := inPop_iff.mp (eq_true_of_ne_false hp)
  obtain ⟨hdone, herr⟩ := not_terminal_of_enabled (agent_of_select hs) (enabled_of_select hs)
  exact h.elim hdone herr

/-- Out of reset a turn pops exactly where `x_in_pop` says so (20_memory R62, R66). -/
theorem takeTurn_pos {s t : State} {a : Agent} (hrst : s.inReset a = false) (h : takeTurn a s = .next t) :
    (t.source a).pos = (s.source a).pos + (if inPop s a then 1 else 0) := by
  obtain ⟨hr, -⟩ | ⟨i, -, hs, hgo, hturn⟩ | ⟨-, hwait, hturn⟩ := takeTurn_cases a s
  · exact absurd (hrst.symm.trans hr) nofun
  · have hpop : inPop s a = true ↔ i.pops = true := by
      rw [inPop_iff, hs]
      cases hp : i.pops with
      | false => simp [hp]
      | true =>
        rw [hp, Bool.true_and] at hgo
        simp [hrst, hgo, hp]
    rw [exec_source (hturn.symm.trans h)]
    simp only [agent_of_select hs, hpop, true_and]
    split <;> rfl
  · obtain rfl := Host.Outcome.next.inj (hturn.symm.trans h)
    have hpop : inPop s a = false := by
      by_contra hp
      obtain ⟨-, hb, i, hs, -⟩ := inPop_iff.mp (eq_true_of_ne_false hp)
      simp [canRun, hrst, hs, hb] at hwait
    simp [hpop]

/-- Settles O59: the input port is the head token, and `x_in_pop` the pop of the next turn. -/
theorem inputPortShowsTheHeadToken : Obligations.InputPortShowsTheHeadToken := by
  intro s a
  refine ⟨Option.isSome_iff_ne_none, decide_eq_true_iff, fun b => ?_, fun h => ?_, inPop_enc_of_done,
    inPop_dec_of_terminal, fun ms t hs hrst h => ?_⟩
  · unfold inValid inEnd inData
    obtain _ | (c | _) := (s.source a).peek <;> simp
  · obtain ⟨b, hb⟩ := peek_of_inPop h
    obtain ⟨hrst, hbacklog, hop⟩ := inPop_iff.mp h
    exact ⟨by simp [inValid, hb], by simp [inEnd, hb], hrst, hbacklog, hop⟩
  · have hturn := takeTurn_pos (s := { s with moves := ms }) (by simpa using hrst) ((step_cons s _ ms hs).symm.trans h)
    have hpop : inPop { s with moves := ms } a = inPop s a := by simp [inPop, inValid]
    rwa [hpop, State.source_moves] at hturn

end Sys2Proof.Machine
end


section
/-! PROOFS. A partial group through truncation and padding (30_encoding R98): the 84s in the place of the digits dropped raise
the word by less than the weight of its last buffered byte. -/

namespace Sys2Proof.Machine

theorem digitSum_pad_bounds (d : Digits) (k : Fin 5) :
    digitSum d ≤ digitSum (d.pad k) ∧ digitSum (d.pad k) < digitSum d + 85 ^ (5 - k.val) := by
  obtain ⟨g0, g1, g2, g3, g4⟩ := d
  have h84 : (84 : Digit).val = 84 := rfl
  fin_cases k <;> simp only [digitSum, Digits.pad, h84, Nat.reduceLeDiff, if_true, if_false, Nat.reduceSub] <;> omega

/-- The first `n` bytes of a number are fixed by its quotient by the weight of the `n`-th. -/
theorem take_bytesOf_congr {u v : Nat} (n : Fin 4) (h : u / 256 ^ (4 - n.val) = v / 256 ^ (4 - n.val)) :
    (bytesOf u).take n.val = (bytesOf v).take n.val := by
  fin_cases n <;> simp [bytesOf, BitVec.toNat_eq] at h ⊢ <;> omega

theorem Group.dvd_word (g : Group) {n : Fin 4} (hn : 0 < n.val) : 256 ^ (4 - n.val) ∣ (g.word n).toNat := by
  rw [Group.word, pack_toNat]
  fin_cases n <;> simp [packSum] at hn ⊢ <;> omega

theorem Group.take_unpack_word (g : Group) (n : Fin 4) :
    (unpack (g.word n)).take n.val = [g.b0, g.b1, g.b2, g.b3].take n.val := by
  rw [Group.word, unpack_pack]
  fin_cases n <;> rfl

/-- A word with nothing behind its first `n` bytes keeps them when its digits from `n + 1` on are padded, without overflow. -/
theorem fold_pad_div {w : Word} {n : Fin 4} {k : Fin 5} (hk : k.val = n.val + 1) (hdvd : 256 ^ (4 - n.val) ∣ w.toNat) :
    (fold ((digits w).pad k)).toNat / 256 ^ (4 - n.val) = w.toNat / 256 ^ (4 - n.val) := by
  have hw := w.isLt
  obtain ⟨hlo, hhi⟩ := digitSum_pad_bounds (digits w) k
  rw [digitSum_digits] at hlo hhi
  rw [fold_toNat]
  generalize digitSum ((digits w).pad k) = v at hlo hhi ⊢
  rw [hk] at hhi
  fin_cases n <;> simp at hdvd hhi ⊢ <;> omega

/-- Settles O5: the padded digits fold to a word with the quotient of the group's, which fixes the `n` bytes. -/
theorem partialGroupSurvivesTruncation : Obligations.PartialGroupSurvivesTruncation := by
  intro g n k hn hk
  rw [unpack_eq_bytesOf, take_bytesOf_congr n (fold_pad_div hk (g.dvd_word hn)), ← unpack_eq_bytesOf, g.take_unpack_word]

end Sys2Proof.Machine
end


section
/-! PROOFS. The operation map read both ways: the fields of a token (30_encoding R90), the character classes by their codes
(R100), and the rows of opcode_table.json against the decoder (R102, R103, R107). -/

namespace Sys2Proof

/-- The agent whose registers a selector holds. -/
def Selector.agent : Selector → Agent
  | .enc .. => .enc
  | .dec .. => .dec

namespace Machine

/-! The bits of a token (30_encoding R90) -/

theorem Token.ofBits_of_end {t : TokenBits} (h : t.getLsbD 8 = true) : Token.ofBits t = .eos := if_pos h

theorem Token.ofBits_of_data {t : TokenBits} (h : t.getLsbD 8 = false) : Token.ofBits t = .byte (t.extractLsb' 0 8) := by
  rw [Token.ofBits, h, BitVec.setWidth_eq_extractLsb' (by decide)]
  rfl

/-- Settles O6: bit 8 alone tells `END` from a byte, and what is written for a token is read back. -/
theorem tokenFieldsAreAsGiven : Obligations.TokenFieldsAreAsGiven :=
  ⟨fun _ => Token.ofBits_of_end, fun _ => Token.ofBits_of_data, Token.ofBits_toBits⟩

theorem Token.end_eq_decide (t : TokenBits) : t.getLsbD 8 = decide (256 ≤ t.toNat) :=
  (BitVec.msb_eq_getLsbD_last t).symm.trans (BitVec.msb_eq_decide t)

/-- The bits of `END` count from 256 on, whatever their data (93 U12). -/
theorem Token.le_toNat_of_ofBits_eos {t : TokenBits} (h : Token.ofBits t = .eos) : 256 ≤ t.toNat := by
  by_contra hlt
  cases (Token.ofBits_of_data ((Token.end_eq_decide t).trans (decide_eq_false hlt))).symm.trans h

/-- The bits of a byte count what the byte does. -/
theorem Token.toNat_of_ofBits_byte {t : TokenBits} {b : Byte} (h : Token.ofBits t = .byte b) : t.toNat = b.toNat := by
  cases hend : t.getLsbD 8 with
  | true => cases (Token.ofBits_of_end hend).symm.trans h
  | false =>
    obtain rfl := Token.byte.inj ((Token.ofBits_of_data hend).symm.trans h)
    have hlt := of_decide_eq_false ((Token.end_eq_decide t).symm.trans hend)
    rw [BitVec.extractLsb'_toNat, Nat.shiftRight_zero, Nat.mod_eq_of_lt (by omega)]

/-! The ranges of a row are the codes of its class (30_encoding R100, R107) -/

@[simp] theorem inRanges_nil (v : Nat) : inRanges [] v = false := rfl

@[simp] theorem inRanges_cons (r : Nat × Nat) (rs : List (Nat × Nat)) (v : Nat) :
    inRanges (r :: rs) v = true ↔ (r.1 ≤ v ∧ v ≤ r.2) ∨ inRanges rs v = true := by
  simp [inRanges]

theorem classify_eq_other_iff_toNat {c : Byte} : classify c = .other ↔
    c.toNat ≤ 8 ∨ c.toNat = 11 ∨ c.toNat = 12 ∨ (14 ≤ c.toNat ∧ c.toNat ≤ 31) ∨ (118 ≤ c.toNat ∧ c.toNat ≤ 121)
      ∨ (123 ≤ c.toNat ∧ c.toNat ≤ 125) ∨ 127 ≤ c.toNat := by
  simp only [classify_eq_other, ne_eq, BitVec.toNat_eq, BitVec.ofNat_eq_ofNat, BitVec.toNat_ofNat]
  omega

@[simp] theorem wellFormed_eBuf (b : Byte) : (Instr.eBuf b).wellFormed = true :=
  (inRanges_cons _ _ _).mpr (.inl ⟨Nat.zero_le _, Nat.le_of_lt_succ b.isLt⟩)

@[simp] theorem wellFormed_eGrp (b : Byte) : (Instr.eGrp b).wellFormed = true := wellFormed_eBuf b

@[simp] theorem wellFormed_dSkip {c : Byte} : (Instr.dSkip c).wellFormed = true ↔ c ≠ 60 := by
  have hc := c.isLt
  simp only [Instr.wellFormed, Instr.ranges, inRanges_cons, inRanges_nil, Bool.false_eq_true, or_false, ne_eq, BitVec.toNat_eq,
    BitVec.ofNat_eq_ofNat, BitVec.toNat_ofNat]
  omega

@[simp] theorem wellFormed_dWs {c : Byte} : (Instr.dWs c).wellFormed = true ↔ classify c = .ws := by
  simp only [Instr.wellFormed, Instr.ranges, inRanges_cons, inRanges_nil, Bool.false_eq_true, or_false, classify_eq_ws,
    BitVec.toNat_eq, BitVec.ofNat_eq_ofNat, BitVec.toNat_ofNat]
  omega

@[simp] theorem wellFormed_dDigit {c : Byte} : (Instr.dDigit c).wellFormed = true ↔ classify c = .digit := by
  simp [Instr.wellFormed, Instr.ranges, classify_eq_digit]

@[simp] theorem wellFormed_dBad {c : Byte} : (Instr.dBad c).wellFormed = true ↔ classify c = .other := by
  have hc := c.isLt
  simp only [Instr.wellFormed, Instr.ranges, inRanges_cons, inRanges_nil, Bool.false_eq_true, or_false,
    classify_eq_other_iff_toNat]
  omega

@[simp] theorem wellFormed_dLtmiss {t : Token} : (Instr.dLtmiss t).wellFormed = true ↔ t ≠ .byte 126 := by
  cases t with
  | eos => decide
  | byte c =>
    have hc := c.isLt
    simp only [Instr.wellFormed, Instr.ranges, Token.number_byte, inRanges_cons, inRanges_nil, Bool.false_eq_true, or_false,
      ne_eq, Token.byte.injEq, BitVec.toNat_eq, BitVec.ofNat_eq_ofNat, BitVec.toNat_ofNat]
    omega

@[simp] theorem wellFormed_dTildebad {t : Token} : (Instr.dTildebad t).wellFormed = true ↔ t ≠ .byte 62 := by
  cases t with
  | eos => decide
  | byte c =>
    have hc := c.isLt
    simp only [Instr.wellFormed, Instr.ranges, Token.number_byte, inRanges_cons, inRanges_nil, Bool.false_eq_true, or_false,
      ne_eq, Token.byte.injEq, BitVec.toNat_eq, BitVec.ofNat_eq_ofNat, BitVec.toNat_ofNat]
    omega

/-- Settles O9: each class by the codes that no earlier test of `classify` takes, each other state by its one code. -/
theorem characterClassesAreAsListed : Obligations.CharacterClassesAreAsListed := by
  intro c
  refine ⟨classify_eq_tilde.trans BitVec.toNat_eq, ?_, classify_eq_z.trans BitVec.toNat_eq, classify_eq_digit,
    classify_eq_other_iff_toNat, fun k => ?_, fun k => ?_, fun k => ?_⟩
  · simp [classify_eq_ws, BitVec.toNat_eq]
  · simp [decode, decodeToken, decodeSeek, BitVec.toNat_eq]
  · simp [decode, decodeToken, decodeLt, BitVec.toNat_eq]
  · simp [decode, decodeToken, decodeTilde, BitVec.toNat_eq]

/-- Settles O10, each word by running the decoder on its bits. -/
theorem sampleWordsDecode : Obligations.SampleWordsDecode := by
  refine ⟨?_, ?_, ?_, ?_, ?_, ?_, ?_⟩ <;> decide

/-! The rows of 10_state R42 and R43 are the rows of opcode_table.json -/

/-- The registers that select an agent's operation (30_encoding R102, R103). -/
def State.selector (s : State) : Agent → Selector
  | .enc => s.enc.selector
  | .dec => s.dec.selector

@[simp] theorem State.selector_enc (s : State) :
    s.selector .enc = .enc s.enc.phase s.enc.n s.enc.grp.b0 s.enc.grp.b1 s.enc.grp.b2 := rfl
@[simp] theorem State.selector_dec (s : State) : s.selector .dec = .dec s.dec.state s.dec.k := rfl

theorem State.select_eq_decode (s : State) (a : Agent) : s.select a = decode (s.selector a) (s.source a).peekBits := by
  cases a <;> rfl

/-- The row of 10_state R42 or R43 is the row of opcode_table.json: its ranges, its state and guard, and its head token,
which E.HDR does not examine. -/
theorem enabled_iff_row {i : Instr} {s : State} : enabled i s = true ↔
    i.wellFormed = true ∧ i.fits (s.selector i.agent) = true
      ∧ (i = .eHdr ∨ (s.source i.agent).peek = some i.token) := by
  have hpack (b0 b1 b2 b3 : Byte) : pack b0 b1 b2 b3 = 0#32 ↔ b0 = 0 ∧ b1 = 0 ∧ b2 = 0 ∧ b3 = 0 := pack_eq_zero_iff
  cases i with
  | eHdr | eGrpz | eEndp | eEnd0 | dLt | dEofs | dHdr | dTilde | dZ | dZerr | dEofp | dTrailer =>
    simp [enabled, Instr.fits, Instr.agent, Instr.token, Instr.wellFormed, hpack, and_assoc, and_comm]
  | eBuf _ | eGrp _ | dSkip _ | dLtmiss _ | dTildebad _ =>
    simp [enabled, Instr.fits, Instr.agent, Instr.token, hpack, and_assoc, and_left_comm, and_comm]
  | dWs _ | dDigit _ =>
    simp [enabled, Instr.fits, Instr.agent, Instr.token, classify_eq_ws, classify_eq_digit, and_assoc, and_left_comm,
      and_comm]
  | dBad _ =>
    simp [enabled, Instr.fits, Instr.agent, Instr.token, classify_eq_other, or_iff_not_imp_left, and_assoc, and_left_comm,
      and_comm]

/-! A state made to hold a selector and a head token (log entry 9): every call of the decoder is the selection of a state -/

theorem agent_of_fits {i : Instr} {sel : Selector} (h : i.fits sel = true) : i.agent = sel.agent := by
  revert h
  cases sel <;> cases i <;> simp [Instr.fits, Instr.agent, Selector.agent]

/-- The source with a token put at its head, as `State.place` puts it. -/
def Source.withHead (src : Source) : Token → Source
  | .byte b =>
    { src with bytes := src.bytes.take src.pos ++ b :: src.bytes.drop (src.pos + 1), pos := min src.pos src.bytes.length }
  | .eos => { src with bytes := src.bytes.take src.pos, closed := true }

@[simp] theorem Source.peek_withHead (src : Source) (t : Token) : (src.withHead t).peek = some t := by
  cases t with
  | byte b => simp [Source.peek_eq_byte, Source.withHead]
  | eos => simp [Source.peek_eq_eos, Source.withHead]

section
variable (s : State) (sel : Selector) (t : Token)

theorem State.source_place : (s.place sel t).source sel.agent = (s.source sel.agent).withHead t := by
  cases sel <;> cases t <;> rfl

@[simp] theorem State.selector_place : (s.place sel t).selector sel.agent = sel := by cases sel <;> rfl

@[simp] theorem State.moves_place : (s.place sel t).moves = .turn sel.agent :: s.moves := by cases sel <;> rfl

@[simp] theorem State.inReset_place : (s.place sel t).inReset sel.agent = false := by cases sel <;> rfl

@[simp] theorem State.backlog_place : (s.place sel t).backlog sel.agent = false := by
  cases sel <;> simp [Selector.agent, State.place, Sink.backlog]

end

/-- A decoder reads from a token's bits the token alone: the data of `END` is ignored (30_encoding R90). -/
theorem decode_toBits_ofBits (sel : Selector) (t : TokenBits) :
    decode sel (some (Token.ofBits t).toBits) = decode sel (some t) := by
  unfold decode
  simp [decodeToken]

/-- What is decoded is what the agent selects in the state made for it. -/
theorem State.select_place (s : State) (sel : Selector) (t : TokenBits) :
    (s.place sel (Token.ofBits t)).select sel.agent = decode sel (some t) := by
  rw [State.select_eq_decode, State.selector_place, State.source_place, Source.peekBits, Source.peek_withHead,
    Option.map_some, decode_toBits_ofBits]

/-- 30_encoding R107: the decoder answers the operation whose row holds the selector and the token. -/
theorem decode_eq_op_iff {sel : Selector} {t : TokenBits} {i : Instr} : decode sel (some t) = .op i ↔
    i.wellFormed = true ∧ i.fits sel = true ∧ (i = .eHdr ∨ Token.ofBits t = i.token) := by
  have hrow (hi : i.agent = sel.agent) : enabled i (State.reset.place sel (Token.ofBits t)) = true ↔
      i.wellFormed = true ∧ i.fits sel = true ∧ (i = .eHdr ∨ Token.ofBits t = i.token) := by
    rw [enabled_iff_row, hi, State.selector_place, State.source_place, Source.peek_withHead, Option.some_inj]
  rw [← State.select_place State.reset]
  constructor
  · intro h
    exact (hrow (agent_of_select h)).mp (enabled_of_select h)
  · rintro ⟨hwf, hfits, htok⟩
    have hi := agent_of_fits hfits
    exact hi ▸ select_of_enabled ((hrow hi).mpr ⟨hwf, hfits, htok⟩)

/-- Settles O7: the token written for an operation is read back, and then the row decides. -/
theorem decodeGivesBackTheEncodedOperation : Obligations.DecodeGivesBackTheEncodedOperation :=
  fun i _ hwf hfits => decode_eq_op_iff.mpr ⟨hwf, hfits, .inr (Token.ofBits_toBits i.token)⟩

theorem ranges_of_token_eos {i : Instr} (h : i.token = .eos) : (256, 511) ∈ i.ranges := by
  cases i <;> simp_all [Instr.token, Instr.ranges]

/-- `Laws.TokenInRow`, of every operation. -/
theorem inRanges_encode {i : Instr} (hwf : i.wellFormed = true) : inRanges i.ranges (encode i).toNat = true :=
  match i with
  | .eHdr => Laws.TokenInRow.eHdr hwf
  | .eBuf b => Laws.TokenInRow.eBuf b hwf
  | .eGrp b => Laws.TokenInRow.eGrp b hwf
  | .eGrpz => Laws.TokenInRow.eGrpz hwf
  | .eEndp => Laws.TokenInRow.eEndp hwf
  | .eEnd0 => Laws.TokenInRow.eEnd0 hwf
  | .dSkip c => Laws.TokenInRow.dSkip c hwf
  | .dLt => Laws.TokenInRow.dLt hwf
  | .dEofs => Laws.TokenInRow.dEofs hwf
  | .dHdr => Laws.TokenInRow.dHdr hwf
  | .dLtmiss t => Laws.TokenInRow.dLtmiss t hwf
  | .dTilde => Laws.TokenInRow.dTilde hwf
  | .dWs c => Laws.TokenInRow.dWs c hwf
  | .dZ => Laws.TokenInRow.dZ hwf
  | .dZerr => Laws.TokenInRow.dZerr hwf
  | .dDigit c => Laws.TokenInRow.dDigit c hwf
  | .dBad c => Laws.TokenInRow.dBad c hwf
  | .dEofp => Laws.TokenInRow.dEofp hwf
  | .dTrailer => Laws.TokenInRow.dTrailer hwf
  | .dTildebad t => Laws.TokenInRow.dTildebad t hwf

/-- The token of a well-formed operation lies in its row's ranges, whatever the data bits of an `END`. -/
theorem inRanges_of_ofBits_eq_token {i : Instr} {t : TokenBits} (hwf : i.wellFormed = true)
    (htok : Token.ofBits t = i.token) : inRanges i.ranges t.toNat = true := by
  cases hi : i.token with
  | byte b =>
    have hnum : t.toNat = (encode i).toNat := by
      rw [encode, Laws.TokenInRow.toBits_toNat, hi, Token.number_byte, Token.toNat_of_ofBits_byte (htok.trans hi)]
    exact hnum ▸ inRanges_encode hwf
  | eos =>
    have hlo := Token.le_toNat_of_ofBits_eos (htok.trans hi)
    exact List.any_eq_true.mpr ⟨_, ranges_of_token_eos hi, decide_eq_true ⟨hlo, Nat.le_of_lt_succ t.isLt⟩⟩

/-- Settles O8: the row's side of `decode_eq_op_iff`, and the ranges from the token; those of E.HDR leave no token out. -/
theorem decodedOperationMatchesItsRow : Obligations.DecodedOperationMatchesItsRow := by
  intro sel t i h
  obtain ⟨hwf, hfits, htok⟩ := decode_eq_op_iff.mp h
  refine ⟨hwf, hfits, ?_, htok⟩
  obtain rfl | htok := htok
  · exact (inRanges_cons _ _ _).mpr (.inl ⟨Nat.zero_le _, Nat.le_of_lt_succ t.isLt⟩)
  · exact inRanges_of_ofBits_eq_token hwf htok

/-! Table words (log entry 9) -/

theorem decodeTableWord_eq_some {nbits w : Nat} {i : Instr} (h : decodeTableWord nbits w = some i) :
    ∃ t, tableToken nbits w = some t ∧ decode (tableSelector t) (some t) = .op i := by
  unfold decodeTableWord at h
  split at h
  · cases h
  next t ht =>
    refine ⟨t, ht, ?_⟩
    split at h
    next j hj => exact Option.some.inj h ▸ hj
    · cases h

theorem withFetchWord_of_token {s : State} {nbits w : Nat} {t : TokenBits} (h : tableToken nbits w = some t) :
    s.withFetchWord nbits w = s.place (tableSelector t) (Token.ofBits t) := by
  simp only [State.withFetchWord, h]

/-- Settles O42: the state made for a word has the turn of the word's agent next, nothing that holds it up, and selected what
the word decodes to. -/
theorem fetchWordRunsTheDecodedOperation : Obligations.FetchWordRunsTheDecodedOperation := by
  intro s nbits w i h
  obtain ⟨t, htok, hdec⟩ := decodeTableWord_eq_some h
  rw [withFetchWord_of_token htok]
  obtain ⟨u, hexec, hstep⟩ := (stepRunsTheDecodedOperation _ _ _ i (State.moves_place s _ _) (State.inReset_place s _ _)
    ((State.select_place s _ t).trans hdec)).1 (.inr (State.backlog_place s _ _))
  exact ⟨u, hstep, hexec⟩

end Machine
end Sys2Proof
end


section
/-! PROOFS. The operations of ENC as whole next states (40_encoder R131 to R138), and what they leave as it was. -/

namespace Sys2Proof.Machine

/-! `PutChar` (40_encoder R131) -/

/-- `PutChar` with the counter as a number. -/
theorem Enc.putChar_eq_toNat (e : Enc) (c : Byte) :
    e.putChar c = { e with
      sink := { e.sink with bytes := e.sink.bytes ++ (if 75 ≤ e.col.toNat then [10, c] else [c]) }
      col := BitVec.ofNat 7 (if 75 ≤ e.col.toNat then 1 else e.col.toNat + 1) } := by
  rw [Enc.putChar_eq]
  by_cases hfull : 75 ≤ e.col.toNat
  · rw [if_pos (show (75 : BitVec 7) ≤ e.col from hfull), if_pos hfull, if_pos hfull]
    rfl
  · rw [if_neg (show ¬ (75 : BitVec 7) ≤ e.col from hfull), if_neg hfull, if_neg hfull, BitVec.ofNat_add,
      BitVec.ofNat_toNat, BitVec.setWidth_eq]
    rfl

/-- Settles O14: the counter decides, and either way it is between 1 and 75 afterwards. -/
theorem putCharChecksTheLine : Obligations.PutCharChecksTheLine :=
  fun e c => ⟨e.putChar_eq_toNat c, e.putChar_col_bounds c⟩

theorem Enc.putChars_col (e : Enc) (cs : List Byte) :
    (e.putChars cs).col = BitVec.ofNat 7 (colFrom e.col.toNat cs.length) := by
  induction cs generalizing e with
  | nil => simp [colFrom]
  | cons c cs ih =>
    rw [Enc.putChars_cons, ih, Enc.putChar_eq_toNat, List.length_cons, colFrom]
    by_cases hfull : 75 ≤ e.col.toNat
    · simp [hfull]
    · have hmod : (e.col.toNat + 1) % 128 = e.col.toNat + 1 := by omega
      simp [hfull, hmod]

/-- `PutChar` of characters in turn changes the sink's bytes and the counter alone. -/
theorem Enc.putChars_eq (e : Enc) (cs : List Byte) :
    e.putChars cs = { e with
      col := BitVec.ofNat 7 (colFrom e.col.toNat cs.length)
      sink := { e.sink with bytes := e.sink.bytes ++ wrapFrom e.col.toNat cs } } := by
  calc e.putChars cs = ⟨(e.putChars cs).phase, (e.putChars cs).n, (e.putChars cs).col, (e.putChars cs).grp,
        (e.putChars cs).src, ⟨(e.putChars cs).sink.bytes, (e.putChars cs).sink.sent⟩, (e.putChars cs).rst⟩ := rfl
    _ = _ := by
      rw [Enc.putChars_col, Enc.putChars_bytes]
      simp only [Enc.putChars_phase, Enc.putChars_n, Enc.putChars_grp, Enc.putChars_src, Enc.putChars_sent,
        Enc.putChars_rst]

/-! The characters of a group (40_encoder R134 to R136) -/

theorem chars_eq_digitChars (w : Word) : chars w = digitChars w.toNat := by
  simp only [chars, Digits.toList, List.map_cons, List.map_nil, chr, digits_g0_val, digits_g1_val, digits_g2_val,
    digits_g3_val, digits_g4_val]
  rfl

@[simp] theorem digitChars_length (v : Nat) : (digitChars v).length = 5 := rfl

theorem Group.put_eq (g : Group) (i : Fin 4) (b : Byte) :
    g.put i b = ⟨if i.val = 0 then b else g.b0, if i.val = 1 then b else g.b1, if i.val = 2 then b else g.b2,
      if i.val = 3 then b else g.b3⟩ := by
  fin_cases i <;> rfl

theorem Group.word_toNat (g : Group) (n : Fin 4) : (g.word n).toNat = partialSum g n.val := pack_toNat _ _ _ _

/-- The payload characters an operation writes, before the line check (40_encoder R134 to R136). -/
def Enc.written (e : Enc) : Instr → List Byte
  | .eGrp b => digitChars (packSum e.grp.b0 e.grp.b1 e.grp.b2 b)
  | .eGrpz => [122]
  | .eEndp => (digitChars (partialSum e.grp e.n.val)).take (e.n.val + 1)
  | _ => []

theorem Enc.written_eEndp_length (e : Enc) : (e.written .eEndp).length = e.n.val + 1 := by
  rw [Enc.written, List.length_take, digitChars_length]
  omega

/-! The effects, as whole next states -/

theorem effEBuf_eq {b : Byte} {e : Enc} (hn : e.n.val < 3) :
    effEBuf b e = { e with
      grp := ⟨if e.n.val = 0 then b else e.grp.b0, if e.n.val = 1 then b else e.grp.b1,
              if e.n.val = 2 then b else e.grp.b2, e.grp.b3⟩
      n := Fin.ofNat 4 (e.n.val + 1)
      src := { e.src with pos := e.src.pos + 1 } } := by
  rw [effEBuf, Group.put_eq, if_neg hn.ne]
  rfl

theorem effEGrp_eq (b : Byte) (e : Enc) :
    effEGrp b e = { e with
      grp := { e.grp with b3 := b }
      n := 0
      col := BitVec.ofNat 7 (colFrom e.col.toNat 5)
      src := { e.src with pos := e.src.pos + 1 }
      sink := { e.sink with bytes := e.sink.bytes ++ wrapFrom e.col.toNat (e.written (.eGrp b)) } } := by
  rw [effEGrp, Enc.putChars_eq, chars_eq_digitChars, pack_toNat]
  rfl

theorem effEGrpz_eq (e : Enc) :
    effEGrpz e = { e with
      grp := { e.grp with b3 := 0 }
      n := 0
      col := BitVec.ofNat 7 (colFrom e.col.toNat 1)
      src := { e.src with pos := e.src.pos + 1 }
      sink := { e.sink with bytes := e.sink.bytes ++ wrapFrom e.col.toNat (e.written .eGrpz) } } := by
  have hput (f : Enc) : f.putChar Config.chZ = f.putChars [Config.chZ] := rfl
  rw [effEGrpz, hput, Enc.putChars_eq]
  rfl

theorem effEEndp_eq (e : Enc) :
    effEEndp e = { e with
      phase := .done
      n := 0
      col := BitVec.ofNat 7 (colFrom e.col.toNat (e.n.val + 1))
      sink := { e.sink with bytes := e.sink.bytes ++ wrapFrom e.col.toNat (e.written .eEndp) ++ [126, 62] } } := by
  have hlen := e.written_eEndp_length
  rw [Enc.written] at hlen
  rw [effEEndp, Enc.putChars_eq, chars_eq_digitChars, Group.word_toNat, hlen]
  rfl

/-! The obligations on single operations -/

theorem exec_eq_of_encEffect {i : Instr} {s : State} {e : Enc} (hi : i.agent = .enc) (h : enabled i s = true)
    (he : encEffect i s.enc = e) : exec i s = .next { s with enc := e } :=
  he ▸ exec_of_enabled_enc hi h

/-- Settles O15: the row of E.HDR is the phase alone, which is `E_HDR` at reset. -/
theorem hdrEmitsTheHeader : Obligations.HdrEmitsTheHeader :=
  ⟨fun _ hp => exec_of_enabled_enc rfl (decide_eq_true hp), fun _ => rfl⟩

/-- Settles O16: with fewer than three bytes held, the byte goes to the place that `e_n` counts. -/
theorem bufStoresTheByte : Obligations.BufStoresTheByte := by
  intro s b hp hpeek hn
  exact exec_eq_of_encEffect rfl (decide_eq_true ⟨hp, hpeek, hn⟩) (effEBuf_eq hn)

/-- Settles O17: the five `PutChar` calls are the digit characters laid out from the counter. -/
theorem grpWritesFiveDigits : Obligations.GrpWritesFiveDigits := by
  intro s b hp hpeek hn hsum
  have hword : pack s.enc.grp.b0 s.enc.grp.b1 s.enc.grp.b2 b ≠ 0 := fun h => hsum (by rw [← pack_toNat, h]; rfl)
  exact exec_eq_of_encEffect rfl (decide_eq_true ⟨hp, hpeek, hn, hword⟩) (effEGrp_eq b s.enc)

/-- Settles O18: one character under the line check, and the group buffer of a zero group is zero. -/
theorem grpzWritesTheShorthand : Obligations.GrpzWritesTheShorthand := by
  intro s hp hpeek hn h0 h1 h2
  have hword := pack_eq_zero_iff.mpr ⟨h0, h1, h2, rfl⟩
  refine exec_eq_of_encEffect rfl (decide_eq_true ⟨hp, hpeek, hn, hword⟩) ((effEGrpz_eq s.enc).trans ?_)
  simp only [h0, h1, h2]
  rfl

/-- Settles O19: the characters that `e_n` counts, laid out from the counter, and the trailer behind them. -/
theorem endpWritesThePartialGroup : Obligations.EndpWritesThePartialGroup :=
  fun s hp hpeek hn => exec_eq_of_encEffect rfl (decide_eq_true ⟨hp, hpeek, hn⟩) (effEEndp_eq s.enc)

/-- Settles O20: on a group boundary the trailer is all that E.END0 writes. -/
theorem end0WritesTheTrailer : Obligations.End0WritesTheTrailer :=
  fun _ hp hpeek hn => exec_of_enabled_enc rfl (decide_eq_true ⟨hp, hpeek, hn⟩)

/-- Settles O30, from the effects as whole next states. -/
theorem encoderRegisterFrame : Obligations.EncoderRegisterFrame := by
  intro i s t h
  obtain ⟨hen, rfl⟩ := (exec_eq_next i s t).mp h
  refine ⟨?_, ?_, ?_, ?_, ?_⟩
  · rintro rfl
    exact ⟨rfl, rfl⟩
  · rintro b rfl
    obtain ⟨-, -, hn⟩ := of_decide_eq_true hen
    rw [encEffect, effEBuf_eq hn]
    exact ⟨rfl, rfl, rfl, (if_neg ·), (if_neg ·), (if_neg ·), rfl⟩
  · rintro (⟨b, rfl⟩ | rfl)
    · simp [encEffect, effEGrp_eq]
    · simp [encEffect, effEGrpz_eq]
  · rintro rfl
    simp [encEffect, effEEndp_eq]
  · rintro rfl
    exact ⟨rfl, rfl, rfl⟩

/-! Terminal states (40_encoder R138; 41_decoder R176) -/

/-- An operation of ENC starts from a state that is not terminal (10_state R42). -/
theorem phase_ne_done_of_enabled {s : State} {i : Instr} (hi : i.agent = .enc) (h : enabled i s = true) :
    s.enc.phase ≠ .done := by
  have hsel := select_of_enabled h
  rw [hi] at hsel
  obtain ⟨hp, -⟩ | ⟨hp, -⟩ := select_enc_eq_op.mp hsel <;> rw [hp] <;> decide

theorem exec_of_not_enabled {s : State} {i : Instr} (h : enabled i s ≠ true) :
    enabled i s = false ∧ exec i s = .fault (.notEnabled i) :=
  ⟨eq_false_of_ne_true h, by rw [exec_eq, if_neg h]⟩

/-- Settles O13: an enabled operation has its agent in a state that is not terminal, and exec asks whether it is enabled. -/
theorem noOperationInTerminalStates : Obligations.NoOperationInTerminalStates := by
  refine ⟨fun s i hi hdone => exec_of_not_enabled fun h => phase_ne_done_of_enabled hi h hdone,
    fun s i hi hterm => exec_of_not_enabled fun h => ?_⟩
  obtain ⟨hdone, herr⟩ := not_terminal_of_enabled hi h
  exact hterm.elim hdone herr

/-- Of all that a step can do to ENC in `E_DONE`, only reset writes a register. -/
theorem EncChange.of_done {s : State} {e : Enc} (h : EncChange s e) (hdone : s.enc.phase = .done) :
    (e.phase = .done ∧ e.n = s.enc.n ∧ e.col = s.enc.col ∧ e.grp = s.enc.grp ∧ e.src.pos = s.enc.src.pos
      ∧ e.sink.bytes = s.enc.sink.bytes)
    ∨ (e.AtReset ∧ e.rst = true) := by
  cases h with
  | op i hi henabled => exact absurd hdone (phase_ne_done_of_enabled hi henabled)
  | reset => exact .inr ⟨s.enc.takeReset_atReset.setRst true, rfl⟩
  | streams src sink rst hsrc hsink => exact .inl ⟨hdone, rfl, rfl, rfl, hsrc.pos, hsink.bytes⟩

/-- Of all that a step can do to DEC in a terminal state, only reset writes a register. -/
theorem DecChange.of_terminal {s : State} {d : Dec} (h : DecChange s d)
    (hterm : s.dec.state = .done ∨ s.dec.state = .err) :
    (d.state = s.dec.state ∧ d.k = s.dec.k ∧ d.dig = s.dec.dig ∧ d.err = s.dec.err ∧ d.src.pos = s.dec.src.pos
      ∧ d.sink.bytes = s.dec.sink.bytes)
    ∨ (d.AtReset ∧ d.rst = true) := by
  cases h with
  | op i hi henabled =>
    obtain ⟨hdone, herr⟩ := not_terminal_of_enabled hi henabled
    exact (hterm.elim hdone herr).elim
  | reset => exact .inr ⟨s.dec.takeReset_atReset.setRst true, rfl⟩
  | streams src sink rst hsrc hsink => exact .inl ⟨rfl, rfl, rfl, rfl, hsrc.pos, hsink.bytes⟩

/-- Settles O44, from what a step can do to each agent. -/
theorem onlyResetLeavesATerminalState : Obligations.OnlyResetLeavesATerminalState :=
  ⟨fun _ _ hstep => (step_enc hstep).of_done, fun _ _ hstep => (step_dec hstep).of_terminal⟩

end Sys2Proof.Machine
end


section
/-! PROOFS. The payload of a source cut into groups, and its layout into lines as `PutChar` writes it (40_encoder R131, R139). -/

namespace Sys2Proof.Machine

/-! The line counter over the payload -/

theorem full_line_iff (m : Nat) : 75 ≤ colAfter m ↔ 73 ≤ m ∧ (m - 73) % 75 = 0 := by
  unfold colAfter
  split <;> omega

theorem colAfter_succ (m : Nat) : colAfter (m + 1) = if 75 ≤ colAfter m then 1 else colAfter m + 1 := by
  simp only [full_line_iff]
  unfold colAfter
  split_ifs <;> omega

/-- The counter after `m` characters and `k` more. -/
theorem colFrom_colAfter (m k : Nat) : colFrom (colAfter m) k = colAfter (m + k) := by
  induction k generalizing m with
  | zero => rfl
  | succ k ih =>
    have hnext : colFrom (colAfter m) (k + 1) = colFrom (colAfter (m + 1)) k := by
      rw [colFrom, colAfter_succ]
      split <;> rfl
    rw [hnext, ih, Nat.add_right_comm, Nat.add_assoc]

theorem colFrom_le {col : Nat} (h : col ≤ 75) (m : Nat) : colFrom col m ≤ 75 := by
  induction m generalizing col with
  | zero => exact h
  | succ m ih =>
    rw [colFrom]
    split <;> exact ih (by omega)

/-! The layout -/

theorem wrapFrom_append (col : Nat) (p q : List Byte) :
    wrapFrom col (p ++ q) = wrapFrom col p ++ wrapFrom (colFrom col p.length) q := by
  induction p generalizing col with
  | nil => rfl
  | cons c p ih =>
    rw [List.cons_append, wrapFrom, wrapFrom, List.length_cons, colFrom, ih, ih]
    split <;> rfl

/-- `layout` of characters of which the first is character `m` of the payload. -/
def layoutFrom (m : Nat) (p : List Byte) : List Byte :=
  (p.zipIdx m).flatMap fun x => if 73 ≤ x.2 ∧ (x.2 - 73) % 75 = 0 then [10, x.1] else [x.1]

/-- The line feeds at the positions of R139 are those of the line check. -/
theorem layoutFrom_eq_wrapFrom (m : Nat) (p : List Byte) : layoutFrom m p = wrapFrom (colAfter m) p := by
  induction p generalizing m with
  | nil => rfl
  | cons c p ih =>
    rw [layoutFrom, List.zipIdx_cons, List.flatMap_cons, ← layoutFrom, ih, colAfter_succ, wrapFrom]
    simp only [← full_line_iff]
    split <;> rfl

theorem layout_eq_wrapFrom (p : List Byte) : layout p = wrapFrom 2 p := layoutFrom_eq_wrapFrom 0 p

/-- More characters are laid out from the counter the ones before left. -/
theorem layout_append (p q : List Byte) : layout (p ++ q) = layout p ++ wrapFrom (colAfter p.length) q := by
  have hcol : colFrom 2 p.length = colAfter p.length := (colFrom_colAfter 0 p.length).trans (by rw [Nat.zero_add])
  rw [layout_eq_wrapFrom, layout_eq_wrapFrom, wrapFrom_append, hcol]

/-! The groups -/

/-- Full groups are encoded on their own. -/
theorem payload_append {full : List Byte} (h : 4 ∣ full.length) (rest : List Byte) :
    payload (full ++ rest) = payload full ++ payload rest := by
  induction full using payload.induct with
  | case1 b0 b1 b2 b3 full ih =>
    have hfull : 4 ∣ full.length := by simpa using h
    simp only [List.cons_append, payload, ih hfull, List.append_assoc]
  | case2 | case3 | case4 => simp at h
  | case5 => rfl

theorem payload_zero_group : payload [0, 0, 0, 0] = [122] := rfl

theorem payload_group {b0 b1 b2 b3 : Byte} (h : packSum b0 b1 b2 b3 ≠ 0) :
    payload [b0, b1, b2, b3] = digitChars (packSum b0 b1 b2 b3) := by
  rw [payload, if_neg h]
  rfl

/-- A partial group is encoded as E.ENDP writes it (40_encoder R136). -/
theorem payload_buffered {e : Enc} (hn : e.n ≠ 0) : payload e.buffered = e.written .eEndp := by
  unfold Enc.buffered Enc.written
  generalize e.n = n at hn ⊢
  fin_cases n
  · exact absurd rfl hn
  all_goals rfl

/-! The bytes a payload is made of (40_encoder R140) -/

theorem mem_digitChars {v : Nat} {c : Byte} (h : c ∈ digitChars v) : 33 ≤ c.toNat ∧ c.toNat ≤ 117 := by
  have hchr (g : Nat) (hg : g < 85) : 33 ≤ (BitVec.ofNat 8 (g + 33)).toNat ∧ (BitVec.ofNat 8 (g + 33)).toNat ≤ 117 := by
    rw [BitVec.toNat_ofNat]
    omega
  simp only [digitChars, List.mem_cons, List.not_mem_nil, or_false] at h
  obtain rfl | rfl | rfl | rfl | rfl := h <;> exact hchr _ (Nat.mod_lt _ (by decide))

/-- What an operation writes under the line check is digit characters and `z`, no line feed among them. -/
theorem Enc.mem_written {e : Enc} {i : Instr} {c : Byte} (h : c ∈ e.written i) : payloadByte c ∧ c ≠ 10 := by
  have hdigit {v : Nat} (hc : c ∈ digitChars v) : payloadByte c ∧ c ≠ 10 := by
    have hrange := mem_digitChars hc
    refine ⟨.inr (.inl hrange), ?_⟩
    rintro rfl
    exact absurd hrange.1 (by decide)
  cases i with
  | eGrp b => exact hdigit h
  | eGrpz =>
    obtain rfl := List.mem_singleton.mp h
    exact ⟨.inr (.inr rfl), by decide⟩
  | eEndp => exact hdigit (List.mem_of_mem_take h)
  | _ => cases h

/-- The line check adds line feeds alone. -/
theorem mem_wrapFrom {cs : List Byte} {col : Nat} {c : Byte} (h : c ∈ wrapFrom col cs) : c = 10 ∨ c ∈ cs := by
  induction cs generalizing col with
  | nil => cases h
  | cons d cs ih =>
    have hrest {col' : Nat} (hc : c ∈ d :: wrapFrom col' cs) : c = 10 ∨ c ∈ d :: cs := by
      obtain rfl | hc := List.mem_cons.mp hc
      · exact .inr List.mem_cons_self
      · exact (ih hc).imp_right (List.mem_cons_of_mem d)
    rw [wrapFrom] at h
    split at h
    · exact (List.mem_cons.mp h).elim .inl hrest
    · exact hrest h

/-! Lines (40_encoder R140 (a)) -/

/-- Every finished line of the text has 75 characters, the one in progress `col`. -/
def LinesAt (text : List Byte) (col : Nat) : Prop :=
  (∀ m ∈ (lineScan text).1, m = 75) ∧ (lineScan text).2 = col ∧ col ≤ 75

theorem Enc.linesFit_iff (e : Enc) : e.LinesFit ↔
    ∃ text, e.sink.bytes = text ++ (if e.phase = .done then [126, 62] else []) ∧ LinesAt text e.col.toNat := Iff.rfl

theorem lineScan_concat (text : List Byte) (c : Byte) :
    lineScan (text ++ [c]) =
      if c = 10 then ((lineScan text).1 ++ [(lineScan text).2], 0) else ((lineScan text).1, (lineScan text).2 + 1) := by
  simp [lineScan]

theorem LinesAt.concat {text : List Byte} {col : Nat} (h : LinesAt text col) {c : Byte} (hc : c ≠ 10) (hlt : col < 75) :
    LinesAt (text ++ [c]) (col + 1) := by
  obtain ⟨hlines, hcol, -⟩ := h
  rw [LinesAt, lineScan_concat, if_neg hc]
  exact ⟨hlines, congrArg (· + 1) hcol, hlt⟩

theorem LinesAt.lineFeed {text : List Byte} (h : LinesAt text 75) : LinesAt (text ++ [10]) 0 := by
  obtain ⟨hlines, hcol, -⟩ := h
  rw [LinesAt, lineScan_concat, if_pos rfl]
  refine ⟨?_, rfl, Nat.zero_le _⟩
  simpa [hcol, or_imp, forall_and] using hlines

/-- Characters under the line check end a line where it has 75 characters and nowhere else. -/
theorem LinesAt.append_wrapFrom {text : List Byte} {col : Nat} (h : LinesAt text col) {cs : List Byte}
    (hcs : ∀ c ∈ cs, c ≠ 10) : LinesAt (text ++ wrapFrom col cs) (colFrom col cs.length) := by
  induction cs generalizing text col with
  | nil => simpa [wrapFrom, colFrom] using h
  | cons c cs ih =>
    obtain ⟨hc, hcs⟩ := List.forall_mem_cons.mp hcs
    rw [wrapFrom, List.length_cons, colFrom]
    split
    next hfull =>
      obtain rfl : col = 75 := h.2.2.antisymm hfull
      simpa using ih (h.lineFeed.concat hc (by decide)) hcs
    next hfull => simpa using ih (h.concat hc (by omega)) hcs

end Sys2Proof.Machine
end


section
/-! PROOFS. What a step keeps of ENC's sink: it is `EncodeAll` of what was read (40_encoder R139), its lines have 75 characters
and its bytes are those of R140. -/

namespace Sys2Proof.Machine

/-! The sink and the counter behind the header -/

/-- An operation other than E.HDR writes its payload characters under the line check, and the trailer if it ends the run
(40_encoder R133 to R137). -/
theorem encEffect_writes {i : Instr} {e : Enc} (hi : i.agent = .enc) (hne : i ≠ .eHdr) (hp : e.phase = .body) :
    (encEffect i e).sink.bytes = e.sink.bytes ++ wrapFrom e.col.toNat (e.written i)
        ++ (if (encEffect i e).phase = .done then [126, 62] else [])
    ∧ (encEffect i e).col = BitVec.ofNat 7 (colFrom e.col.toNat (e.written i).length) := by
  cases i with
  | eHdr => exact absurd rfl hne
  | eBuf b => simp [encEffect, effEBuf, Enc.written, wrapFrom, colFrom, hp]
  | eGrp b =>
    rw [encEffect, effEGrp_eq]
    simp [Enc.written, hp]
  | eGrpz =>
    rw [encEffect, effEGrpz_eq]
    simp [Enc.written, hp]
  | eEndp =>
    rw [encEffect, effEEndp_eq, Enc.written_eEndp_length]
    exact ⟨rfl, rfl⟩
  | eEnd0 => simp [encEffect, effEEnd0, Enc.written, wrapFrom, colFrom]
  | _ => cases hi

/-- The counter stays in its range, so its 7 bits lose nothing (10_state R52 item 2). -/
theorem encEffect_col_toNat {i : Instr} {e : Enc} (hi : i.agent = .enc) (hne : i ≠ .eHdr) (hp : e.phase = .body)
    (hcol : e.col.toNat ≤ 75) : (encEffect i e).col.toNat = colFrom e.col.toNat (e.written i).length := by
  have hle := colFrom_le hcol (e.written i).length
  rw [(encEffect_writes hi hne hp).2, BitVec.toNat_ofNat, Nat.mod_eq_of_lt (by omega)]

/-! Lines (40_encoder R140 (a)) -/

theorem Enc.AtReset.linesFit {e : Enc} (h : e.AtReset) : e.LinesFit := by
  refine e.linesFit_iff.mpr ⟨[], ?_, ?_⟩
  · simp [h.sink, h.phase]
  · rw [h.col]
    exact ⟨nofun, rfl, by decide⟩

theorem encEffect_linesFit {s : State} {i : Instr} (hi : i.agent = .enc) (henabled : enabled i s = true)
    (hinv : s.enc.Inv) (h : s.enc.LinesFit) : (encEffect i s.enc).LinesFit := by
  by_cases hne : i = .eHdr
  · subst hne
    obtain ⟨-, -, hempty⟩ := hinv.hdr (of_decide_eq_true henabled)
    exact (Enc.linesFit_iff _).mpr ⟨[60, 126], by simp [encEffect, effEHdr, hempty],
      show LinesAt [60, 126] 2 by unfold LinesAt; decide⟩
  · have hp := phase_body_of_enabled hi hne henabled
    obtain ⟨text, hbytes, hlines⟩ := s.enc.linesFit_iff.mp h
    rw [hp, if_neg nofun, List.append_nil] at hbytes
    refine (Enc.linesFit_iff _).mpr ⟨text ++ wrapFrom s.enc.col.toNat (s.enc.written i), ?_, ?_⟩
    · rw [(encEffect_writes hi hne hp).1, hbytes]
    · rw [encEffect_col_toNat hi hne hp hinv.col_le]
      exact hlines.append_wrapFrom fun c hc => (Enc.mem_written hc).2

/-- An operation adds characters under the line check, reset empties the sink, and nothing else writes it. -/
theorem EncChange.linesFit {s : State} {e : Enc} (hchange : EncChange s e) (hinv : s.enc.Inv) (h : s.enc.LinesFit) :
    e.LinesFit := by
  cases hchange with
  | op i hi henabled => exact encEffect_linesFit hi henabled hinv h
  | reset => exact (s.enc.takeReset_atReset.setRst true).linesFit
  | streams src sink rst _ hsink =>
    obtain ⟨text, hbytes, hlines⟩ := h
    exact ⟨text, hsink.bytes.trans hbytes, hlines⟩

/-- Settles O55, from what a step can do to ENC. -/
theorem stepKeepsLinesWithinTheLimit : Obligations.StepKeepsLinesWithinTheLimit :=
  fun _ _ hinv h hstep => (step_enc hstep).linesFit hinv.1 h

/-! The shape of the sink (40_encoder R140 (b), (c)) -/

theorem Enc.AtReset.shaped {e : Enc} (h : e.AtReset) : e.Shaped where
  hdr _ := by rw [h.sink]
  body hp := absurd (h.phase.symm.trans hp) nofun
  done hp := absurd (h.phase.symm.trans hp) nofun

/-- Behind the header, the two shapes of a sink are one up to the trailer. -/
theorem Enc.Shaped.of_past_header {e : Enc} (hp : e.phase ≠ .hdr) {mid : List Byte} (hmid : ∀ c ∈ mid, payloadByte c)
    (hbytes : e.sink.bytes = [60, 126] ++ mid ++ (if e.phase = .done then [126, 62] else [])) : e.Shaped where
  hdr h := absurd h hp
  body h := ⟨mid, by rw [hbytes, h, if_neg nofun, List.append_nil], hmid⟩
  done h := ⟨mid, by rw [hbytes, if_pos h], hmid⟩

theorem encEffect_shaped {s : State} {i : Instr} (hi : i.agent = .enc) (henabled : enabled i s = true)
    (hinv : s.enc.Inv) (h : s.enc.Shaped) : (encEffect i s.enc).Shaped := by
  have hpast := (encEffect_past_header hi henabled hinv).1
  by_cases hne : i = .eHdr
  · subst hne
    have hempty := h.hdr (of_decide_eq_true henabled)
    exact .of_past_header hpast (mid := []) nofun (by simp [encEffect, effEHdr, hempty])
  · have hp := phase_body_of_enabled hi hne henabled
    obtain ⟨mid, hbytes, hmid⟩ := h.body hp
    refine .of_past_header hpast (mid := mid ++ wrapFrom s.enc.col.toNat (s.enc.written i)) ?_ ?_
    · rintro c hc
      obtain hc | hc := List.mem_append.mp hc
      · exact hmid c hc
      · exact (mem_wrapFrom hc).elim .inl fun hw => (Enc.mem_written hw).1
    · rw [(encEffect_writes hi hne hp).1, hbytes, List.append_assoc [60, 126]]

/-- An operation adds payload bytes and, last, the trailer, reset empties the sink, and nothing else writes it. -/
theorem EncChange.shaped {s : State} {e : Enc} (hchange : EncChange s e) (hinv : s.enc.Inv) (h : s.enc.Shaped) :
    e.Shaped := by
  cases hchange with
  | op i hi henabled => exact encEffect_shaped hi henabled hinv h
  | reset => exact (s.enc.takeReset_atReset.setRst true).shaped
  | streams src sink rst _ hsink =>
    exact ⟨fun hp => hsink.bytes.trans (h.hdr hp), fun hp => hsink.bytes ▸ h.body hp, fun hp => hsink.bytes ▸ h.done hp⟩

/-- Settles O56, from what a step can do to ENC. -/
theorem stepKeepsTheSinkShaped : Obligations.StepKeepsTheSinkShaped :=
  fun _ _ hinv h hstep => (step_enc hstep).shaped hinv.1 h

/-! The bytes popped, and those of them in the group buffer -/

theorem Enc.popped_of_pop {e e' : Enc} {b : Byte} (hsrc : e'.src = e.src.pop) (hb : e.src.peek = some (.byte b)) :
    e'.popped = e.popped ++ [b] := by
  rw [Source.peek_eq_byte] at hb
  rw [Enc.popped, hsrc, Source.pop_bytes, Source.pop_pos, List.take_add_one, hb]
  rfl

theorem Enc.popped_of_eos {e : Enc} (h : e.src.peek = some .eos) : e.popped = e.src.bytes :=
  List.take_of_length_le ((Source.peek_eq_eos _).mp h).1

theorem Enc.buffered_of_zero {e : Enc} (hn : e.n = 0) : e.buffered = [] := by
  rw [Enc.buffered, hn]
  rfl

theorem Enc.buffered_of_three {e : Enc} (hn : e.n = 3) : e.buffered = [e.grp.b0, e.grp.b1, e.grp.b2] := by
  rw [Enc.buffered, hn]
  rfl

theorem Enc.buffered_effEBuf {b : Byte} {e : Enc} (hn : e.n.val < 3) : (effEBuf b e).buffered = e.buffered ++ [b] := by
  rw [effEBuf_eq hn]
  unfold Enc.buffered
  generalize e.n = n at hn ⊢
  fin_cases n
  · rfl
  · rfl
  · rfl
  · exact absurd hn (by decide)

/-- The fourth byte of a group: it is no longer buffered, and its group counts among the full ones. -/
theorem Enc.popped_of_full_group {e e' : Enc} {b : Byte} {full : List Byte} (hpop : e.popped = full ++ e.buffered)
    (hn : e.n = 3) (hb : e.src.peek = some (.byte b)) (hsrc : e'.src = e.src.pop) (hn' : e'.n = 0) :
    e'.popped = full ++ [e.grp.b0, e.grp.b1, e.grp.b2, b] ++ e'.buffered := by
  rw [Enc.popped_of_pop hsrc hb, hpop, Enc.buffered_of_three hn, Enc.buffered_of_zero hn']
  simp

/-- An operation that does not end the run: its payload characters are those of the group it completes, if it does. -/
theorem encEffect_reads {s : State} {i : Instr} (hi : i.agent = .enc) (hne : i ≠ .eHdr) (henabled : enabled i s = true)
    (hrun : (encEffect i s.enc).phase = .body) {full : List Byte} (hdvd : 4 ∣ full.length)
    (hpop : s.enc.popped = full ++ s.enc.buffered) :
    ∃ full', 4 ∣ full'.length ∧ (encEffect i s.enc).popped = full' ++ (encEffect i s.enc).buffered
      ∧ payload full' = payload full ++ s.enc.written i := by
  have hgroup (b0 b1 b2 b3 : Byte) : 4 ∣ (full ++ [b0, b1, b2, b3]).length := by simpa using hdvd
  cases i with
  | eHdr => exact absurd rfl hne
  | eBuf b =>
    obtain ⟨-, hb, hn⟩ := of_decide_eq_true henabled
    refine ⟨full, hdvd, ?_, (List.append_nil _).symm⟩
    rw [encEffect, Enc.popped_of_pop rfl hb, hpop, Enc.buffered_effEBuf hn, List.append_assoc]
  | eGrp b =>
    obtain ⟨-, hb, hn, hword⟩ := of_decide_eq_true henabled
    refine ⟨_, hgroup _ _ _ b, Enc.popped_of_full_group hpop hn hb (encEffect_src hi _) rfl, ?_⟩
    rw [payload_append hdvd, payload_group, Enc.written]
    rwa [ne_eq, BitVec.toNat_eq, pack_toNat] at hword
  | eGrpz =>
    obtain ⟨-, hb, hn, hword⟩ := of_decide_eq_true henabled
    refine ⟨_, hgroup _ _ _ 0, Enc.popped_of_full_group hpop hn hb (encEffect_src hi _) rfl, ?_⟩
    obtain ⟨h0, h1, h2, -⟩ := pack_eq_zero_iff.mp hword
    rw [payload_append hdvd, h0, h1, h2, payload_zero_group, Enc.written]
  | eEndp | eEnd0 => cases hrun
  | _ => cases hi

/-- An operation that ends the run: the source is used up, and its payload characters are those of the bytes buffered. -/
theorem encEffect_ends {s : State} {i : Instr} (hi : i.agent = .enc) (henabled : enabled i s = true)
    (hend : (encEffect i s.enc).phase = .done) :
    s.enc.src.peek = some .eos ∧ i.pops = false ∧ payload s.enc.buffered = s.enc.written i := by
  have hstart : s.enc.phase ≠ .done := phase_ne_done_of_enabled hi henabled
  cases i with
  | eHdr => cases hend
  | eBuf b => exact absurd hend hstart
  | eGrp b =>
    rw [encEffect, effEGrp_eq] at hend
    exact absurd hend hstart
  | eGrpz =>
    rw [encEffect, effEGrpz_eq] at hend
    exact absurd hend hstart
  | eEndp =>
    obtain ⟨-, heos, hn⟩ := of_decide_eq_true henabled
    exact ⟨heos, rfl, payload_buffered hn⟩
  | eEnd0 =>
    obtain ⟨-, heos, hn⟩ := of_decide_eq_true henabled
    exact ⟨heos, rfl, by rw [Enc.buffered_of_zero hn]; rfl⟩
  | _ => cases hi

/-! ENC against `EncodeAll` (40_encoder R139) -/

theorem Enc.AtReset.tracks {e : Enc} (h : e.AtReset) : e.Tracks where
  hdr _ := h.pos
  body hp := absurd (h.phase.symm.trans hp) nofun
  done hp := absurd (h.phase.symm.trans hp) nofun

/-- E.HDR writes what stands before the characters of no group at all. -/
theorem effEHdr_tracks {e : Enc} (hp : e.phase = .hdr) (hinv : e.Inv) (h : e.Tracks) : (effEHdr e).Tracks where
  hdr := nofun
  body _ := by
    obtain ⟨hn, -, hempty⟩ := hinv.hdr hp
    refine ⟨[], Nat.dvd_zero _, ?_, ?_, rfl⟩
    · have hn' : (effEHdr e).n = 0 := hn
      rw [Enc.buffered_of_zero hn', Enc.popped]
      simp [effEHdr, h.hdr hp]
    · simp [effEHdr, hempty, payload, layout]
  done := nofun

theorem encEffect_tracks {s : State} {i : Instr} (hi : i.agent = .enc) (hne : i ≠ .eHdr) (henabled : enabled i s = true)
    (hinv : s.enc.Inv) (h : s.enc.Tracks) : (encEffect i s.enc).Tracks := by
  have hp := phase_body_of_enabled hi hne henabled
  obtain ⟨full, hdvd, hpop, hbytes, hcol⟩ := h.body hp
  obtain ⟨hwrite, -⟩ := encEffect_writes hi hne hp
  have hlayout : s.enc.sink.bytes ++ wrapFrom s.enc.col.toNat (s.enc.written i)
      = [60, 126] ++ layout (payload full ++ s.enc.written i) := by
    rw [hbytes, hcol, layout_append, List.append_assoc]
  refine ⟨fun h' => absurd h' (encEffect_past_header hi henabled hinv).1, fun hrun => ?_, fun hend => ?_⟩
  · obtain ⟨full', hdvd', hpop', hpay⟩ := encEffect_reads hi hne henabled hrun hdvd hpop
    refine ⟨full', hdvd', hpop', ?_, ?_⟩
    · rw [hwrite, hrun, if_neg nofun, List.append_nil, hlayout, hpay]
    · rw [encEffect_col_toNat hi hne hp hinv.col_le, hcol, colFrom_colAfter, hpay, List.length_append]
  · obtain ⟨heos, hpops, hpay⟩ := encEffect_ends hi henabled hend
    obtain ⟨hused, hclosed⟩ := (Source.peek_eq_eos _).mp heos
    have hsource : payload s.enc.src.bytes = payload full ++ s.enc.written i := by
      rw [← Enc.popped_of_eos heos, hpop, payload_append hdvd, hpay]
    rw [encEffect_src hi, hpops]
    refine ⟨?_, hinv.pos_le.antisymm hused, hclosed⟩
    rw [hwrite, if_pos hend, hlayout, ← hsource]
    rfl

/-- The host's moves give ENC no byte it has popped, nor, once it is done, any byte at all (20_memory R62). -/
theorem Enc.Tracks.streams {e : Enc} {src : Source} {sink : Sink} {rst : Bool} (h : e.Tracks) (hinv : e.Inv)
    (hsrc : e.src.Fed src) (hsink : e.sink.Presented sink)
    (hclosed : e.rst = false → e.src.closed = true → src.closed = true) :
    ({ e with src := src, sink := sink, rst := rst } : Enc).Tracks := by
  obtain ⟨more, hmore, hnone⟩ := hsrc.bytes
  refine ⟨fun hp => hsrc.pos.trans (h.hdr hp), fun hp => ?_, fun hp => ?_⟩
  · obtain ⟨full, hdvd, hpop, hbytes, hcol⟩ := h.body hp
    refine ⟨full, hdvd, ?_, hsink.bytes.trans hbytes, hcol⟩
    have hsame : src.bytes.take src.pos = e.popped := by
      rw [hsrc.pos, hmore, List.take_append_of_le_length hinv.pos_le]
      rfl
    exact hsame.trans hpop
  · obtain ⟨hbytes, hpos, hend⟩ := h.done hp
    have hrun : e.rst = false := by
      by_contra hr
      have hphase := (hinv.reset (eq_true_of_ne_false hr)).phase
      exact absurd (hphase.symm.trans hp) nofun
    have hsame : src.bytes = e.src.bytes := by rw [hmore, hnone hend, List.append_nil]
    refine ⟨?_, ?_, hclosed hrun hend⟩
    · exact hsink.bytes.trans (hsame ▸ hbytes)
    · exact hsrc.pos.trans (hsame ▸ hpos)

/-- E.HDR starts the text, each further operation lays out the characters of what it reads, reset starts again, and the host
and the port change nothing the text is made of. -/
theorem EncChange.tracks {s : State} {e : Enc} (hchange : EncChange s e) (hinv : s.enc.Inv) (h : s.enc.Tracks) :
    e.Tracks := by
  cases hchange with
  | op i hi henabled =>
    by_cases hne : i = .eHdr
    · subst hne
      exact effEHdr_tracks (of_decide_eq_true henabled) hinv h
    · exact encEffect_tracks hi hne henabled hinv h
  | reset => exact (s.enc.takeReset_atReset.setRst true).tracks
  | streams src sink rst hsrc hsink _ hclosed => exact h.streams hinv hsrc hsink hclosed

/-- Settles O53, from what a step can do to ENC. -/
theorem stepKeepsTheEncoderOnTrack : Obligations.StepKeepsTheEncoderOnTrack :=
  fun _ _ hinv h hstep => (step_enc hstep).tracks hinv.1 h

/-- Settles O52: ENC stands at its reset values, and DEC has all of `DecodeAll` before it. -/
theorem agentsAreOnTrackAtReset : Obligations.AgentsAreOnTrackAtReset :=
  have henc : State.reset.enc.AtReset := ⟨rfl, rfl, rfl, rfl, rfl, rfl⟩
  ⟨henc.tracks, fun _ _ => rfl, henc.linesFit, henc.shaped⟩

end Sys2Proof.Machine
end


section
/-! PROOFS. The operations of DEC as next states (41_decoder R161 to R175), and the registers they leave as they were. -/

namespace Sys2Proof.Machine

/-! The digit buffer as a list (10_state R35) -/

@[simp] theorem Digits.toList_length (d : Digits) : d.toList.length = 5 := rfl

theorem Digits.toList_put (d : Digits) (i : Fin 5) (v : Digit) : (d.put i v).toList = d.toList.set i.val v := by
  fin_cases i <;> rfl

theorem Digits.toList_pad (d : Digits) (k : Fin 5) :
    (d.pad k).toList = d.toList.take k.val ++ List.replicate (5 - k.val) 84 := by
  fin_cases k <;> rfl

theorem Digits.pad_eq_padded (d : Digits) (k : Fin 5) : d.pad k = padded d k.val := by
  fin_cases k <;> rfl

/-- Padding keeps the digits below the count (41_decoder R161). -/
theorem Digits.getElem?_toList_pad {d : Digits} {k : Fin 5} {j : Nat} (hj : j < k.val) :
    (d.pad k).toList[j]? = d.toList[j]? := by
  have hlen : j < (d.toList.take k.val).length := by
    rw [List.length_take, Digits.toList_length]
    omega
  rw [Digits.toList_pad, List.getElem?_append_left hlen, List.getElem?_take_of_lt hj]

/-! `Flush` (41_decoder R161) -/

theorem Dec.flush_of_zero {d : Dec} (hk : d.k = 0) : d.flush = d := by
  rw [Dec.flush_eq, if_neg (by simp [hk]), ← hk]

theorem Dec.flush_of_pos {d : Dec} (hk : 0 < d.k.val) :
    d.flush = { d with
      dig := d.dig.pad d.k
      k := 0
      sink := { d.sink with bytes := d.sink.bytes ++ (unpack (fold (d.dig.pad d.k))).take (d.k.val - 1) } } := by
  rw [Dec.flush_eq, if_pos hk]

/-- Settles O25: with no digit held only the count is written, as it stands; otherwise the word folded is the sum by weight of
the padded digits. -/
theorem flushWritesAllButOne : Obligations.FlushWritesAllButOne := by
  refine ⟨fun d hk => Dec.flush_of_zero (Fin.ext hk), fun d hk => ?_⟩
  rw [Dec.flush_of_pos hk, unpack_eq_bytesOf, fold_toNat, Digits.pad_eq_padded]

theorem Dec.getElem?_flush_dig {d : Dec} {j : Nat} (hj : j < d.k.val) :
    d.flush.dig.toList[j]? = d.dig.toList[j]? := by
  rw [Dec.flush_of_pos (by omega)]
  exact Digits.getElem?_toList_pad hj

/-! D.DIGIT (41_decoder R170) -/

theorem effDDigit_dig (c : Byte) (d : Dec) : (effDDigit c d).dig = d.dig.put d.k (val c) := by
  unfold effDDigit
  split <;> rfl

theorem effDDigit_of_fifth {c : Byte} {d : Dec} (hk : d.k = 4) :
    (effDDigit c d).k = 0
    ∧ (effDDigit c d).sink.bytes = d.sink.bytes ++ unpack (fold (effDDigit c d).dig) := by
  unfold effDDigit
  rw [if_pos hk]
  exact ⟨rfl, rfl⟩

theorem effDDigit_of_lt {c : Byte} {d : Dec} (hk : d.k.val < 4) :
    (effDDigit c d).k.val = d.k.val + 1 ∧ (effDDigit c d).sink = d.sink := by
  unfold effDDigit
  rw [if_neg (by rintro h; simp [h] at hk)]
  exact ⟨Fin.val_add_one_of_lt (Fin.lt_def.mpr hk), rfl⟩

/-- Settles O23, from the two ways `d_k` can stand. -/
theorem digitBuffersOrDecodes : Obligations.DigitBuffersOrDecodes := by
  intro s c hp hpeek hlo hhi
  refine ⟨_, exec_of_enabled_dec rfl (decide_eq_true ⟨hp, hpeek, hlo, hhi⟩), rfl, rfl, (effDDigit_state c s.dec).trans hp,
    effDDigit_err c s.dec, effDDigit_rst c s.dec, effDDigit_src c s.dec, ?_, effDDigit_sent c s.dec, fun hk => ?_,
    fun hk => ?_⟩
  · exact (congrArg Digits.toList (effDDigit_dig c s.dec)).trans (Digits.toList_put _ _ _)
  · obtain ⟨hk', hsink⟩ := effDDigit_of_fifth (c := c) (Fin.ext hk)
    rw [unpack_eq_bytesOf, fold_toNat] at hsink
    exact ⟨hk', hsink⟩
  · obtain ⟨hk', hsink⟩ := effDDigit_of_lt (c := c) hk
    exact ⟨hk', congrArg Sink.bytes hsink⟩

/-! The other operations -/

/-- Settles O21: each row of `D_SEEK` and `D_LT` holds, and its effect is the next state stated. -/
theorem seekingOperationsDoThis : Obligations.SeekingOperationsDoThis :=
  ⟨fun _ _ hp hpeek hc => exec_of_enabled_dec rfl (decide_eq_true ⟨hp, hpeek, hc⟩),
    fun _ hp hpeek => exec_of_enabled_dec rfl (decide_eq_true ⟨hp, hpeek⟩),
    fun _ hp hpeek => exec_of_enabled_dec rfl (decide_eq_true ⟨hp, hpeek⟩),
    fun _ hp hpeek => exec_of_enabled_dec rfl (decide_eq_true ⟨hp, hpeek⟩),
    fun _ _ hp hpeek hne => exec_of_enabled_dec rfl (decide_eq_true ⟨hp, hpeek, hne⟩)⟩

/-- Settles O22: the three rows of `D_PAY` hold, and each effect is the next state stated. -/
theorem payloadOperationsDoThis : Obligations.PayloadOperationsDoThis :=
  ⟨fun _ hp hpeek => exec_of_enabled_dec rfl (decide_eq_true ⟨hp, hpeek⟩),
    fun _ _ hp hpeek hc => exec_of_enabled_dec rfl (decide_eq_true ⟨hp, hpeek, hc⟩),
    fun _ hp hpeek hk => exec_of_enabled_dec rfl (decide_eq_true ⟨hp, hpeek, hk⟩)⟩

/-- Settles O24: the codes of class OTHER are those of no other class, and a raise writes two registers. -/
theorem raisingOperationsDoThis : Obligations.RaisingOperationsDoThis := by
  refine ⟨fun _ hp hpeek hk => exec_of_enabled_dec rfl (decide_eq_true ⟨hp, hpeek, hk⟩), fun _ _ hp hpeek hc => ?_,
    fun _ _ hp hpeek hne => exec_of_enabled_dec rfl (decide_eq_true ⟨hp, hpeek, hne⟩)⟩
  have hother := classify_eq_other.mp (classify_eq_other_iff_toNat.mpr hc)
  exact exec_of_enabled_dec rfl (decide_eq_true ⟨hp, hpeek, hother⟩)

/-- `Flush` does not read the source, so a pop before it and one after it are the same. -/
theorem Dec.flush_pop (d : Dec) : d.pop.flush = d.flush.pop := by
  obtain hk | hk := Nat.eq_zero_or_pos d.k.val
  · rw [Dec.flush_of_zero (Fin.ext hk), Dec.flush_of_zero (d := d.pop) (Fin.ext hk)]
  · rw [Dec.flush_of_pos hk, Dec.flush_of_pos (d := d.pop) hk]
    rfl

theorem effDTrailer_eq (d : Dec) :
    effDTrailer d = { d.flush with state := .done, src := { d.src with pos := d.src.pos + 1 } } := by
  rw [effDTrailer, Dec.flush_pop, Dec.pop, Dec.flush_src]
  rfl

/-- Settles O26: both rows hold; `Flush` keeps `d_err` and the source. -/
theorem endsOfPayloadFlush : Obligations.EndsOfPayloadFlush := by
  refine ⟨fun s hp hpeek => ⟨exec_of_enabled_dec rfl (decide_eq_true ⟨hp, hpeek⟩), s.dec.flush_err, s.dec.flush_src⟩,
    fun s hp hpeek => ⟨?_, s.dec.flush_err⟩⟩
  rw [← effDTrailer_eq]
  exact exec_of_enabled_dec rfl (decide_eq_true ⟨hp, hpeek⟩)

/-- Settles O31: the digits that D.DIGIT and `Flush` keep are those at the positions they do not write. -/
theorem decoderRegisterFrame : Obligations.DecoderRegisterFrame := by
  intro i s t h
  obtain ⟨-, rfl⟩ := (exec_eq_next i s t).mp h
  refine ⟨?_, ?_, ?_, ?_, ?_, ?_⟩
  · rintro (⟨c, rfl⟩ | ⟨c, rfl⟩ | rfl) <;> exact ⟨rfl, rfl, rfl, rfl⟩
  · rintro (rfl | rfl | ⟨tok, rfl⟩ | rfl) <;> exact ⟨rfl, rfl, rfl, rfl⟩
  · rintro rfl
    exact ⟨rfl, rfl, rfl⟩
  · rintro ⟨c, rfl⟩
    refine ⟨effDDigit_state c s.dec, effDDigit_err c s.dec, fun j hj => ?_⟩
    rw [decEffect, effDDigit_dig, Digits.toList_put, List.getElem?_set_ne hj.symm]
  · rintro (rfl | ⟨c, rfl⟩ | ⟨tok, rfl⟩) <;> exact ⟨rfl, rfl, rfl⟩
  · rintro (rfl | rfl)
    · exact ⟨s.dec.flush_err, fun j hj => Dec.getElem?_flush_dig hj⟩
    · exact ⟨s.dec.pop.flush_err, fun j hj => Dec.getElem?_flush_dig (d := s.dec.pop) hj⟩

end Sys2Proof.Machine
end


section
/-! PROOFS. DEC against `DecodeAll` (41_decoder R177): every step keeps what `DecodeAll` gives for the source equal to what it
still gives from where DEC stands. -/

namespace Sys2Proof

/-- The byte a head token stands for; none for `END`. -/
def Token.byte? : Token → Option Byte
  | .byte b => some b
  | .eos => none

theorem Token.byte?_eq_some_iff {t : Token} {b : Byte} : t.byte? = some b ↔ t = .byte b := by
  cases t <;> simp [Token.byte?]

namespace Machine

/-! The digits held, and the bytes they flush to (41_decoder R161, R170) -/

theorem foldList_toList (d : Digits) : foldList d.toList = (fold d).toNat := by
  rw [fold_toNat]
  simp only [foldList, Digits.toList, List.foldl_cons, List.foldl_nil, digitSum]
  omega

theorem Digits.length_take_toList (d : Digits) (k : Fin 5) : (d.toList.take k.val).length = k.val := by
  rw [List.length_take, Digits.toList_length, Nat.min_eq_left k.isLt.le]

/-- Any number of digits short of a group flushes to the bytes `Flush` emits for them (41_decoder R161). -/
theorem flushBytes_take_toList (d : Digits) (k : Fin 5) :
    flushBytes (d.toList.take k.val) = if 0 < k.val then (unpack (fold (d.pad k))).take (k.val - 1) else [] := by
  simp only [flushBytes, Digits.length_take_toList, k.isLt, and_true, ← Digits.toList_pad, foldList_toList,
    ← unpack_eq_bytesOf]

@[simp] theorem Dec.length_held (d : Dec) : d.held.length = d.k.val := Digits.length_take_toList d.dig d.k

theorem Dec.held_eq_nil_iff {d : Dec} : d.held = [] ↔ d.k = 0 := by
  rw [← List.length_eq_zero_iff, Dec.length_held, Fin.val_eq_zero_iff]

theorem Dec.flush_bytes (d : Dec) : d.flush.sink.bytes = d.sink.bytes ++ flushBytes d.held := by
  rw [Dec.held, flushBytes_take_toList]
  obtain hk | hk := Nat.eq_zero_or_pos d.k.val
  · rw [Dec.flush_of_zero (Fin.ext hk), if_neg (by omega), List.append_nil]
  · rw [Dec.flush_of_pos hk, if_pos hk]

theorem Digits.take_toList_put (d : Digits) (k : Fin 5) (v : Digit) :
    (d.put k v).toList.take (k.val + 1) = d.toList.take k.val ++ [v] := by
  fin_cases k <;> rfl

/-- A digit that does not complete a group joins those held (41_decoder R170). -/
theorem Dec.held_effDDigit {c : Byte} {d : Dec} (hk : d.k.val < 4) : (effDDigit c d).held = d.held ++ [val c] := by
  rw [Dec.held, effDDigit_dig, (effDDigit_of_lt hk).1]
  exact d.dig.take_toList_put d.k (val c)

/-- The fifth digit completes the group of those held (41_decoder R170). -/
theorem effDDigit_bytes_of_fifth {c : Byte} {d : Dec} (hk : d.k = 4) :
    (effDDigit c d).sink.bytes = d.sink.bytes ++ bytesOf (foldList (d.held ++ [val c])) := by
  have hgroup : (effDDigit c d).dig.toList = d.held ++ [val c] := by
    have hput := d.dig.take_toList_put d.k (val c)
    rwa [← effDDigit_dig, List.take_of_length_le (by simp [hk])] at hput
  rw [(effDDigit_of_fifth hk).2, unpack_eq_bytesOf, ← foldList_toList, hgroup]

/-! The loop of `DecodeAll` by the class of the next character (41_decoder R177; 30_encoding R100) -/

section
variable {c : Byte} {rest out : List Byte} {ds : List Digit} {i : Nat}

/-- The classes other than `~` as the loop asks for them, one after another. -/
theorem decodePayload_cons (h : classify c ≠ .tilde) : decodePayload (c :: rest) out ds i =
    if classify c = .ws then decodePayload rest out ds (i + 1)
    else if classify c = .z then
      if ds = [] then decodePayload rest (out ++ [0, 0, 0, 0]) [] (i + 1) else ⟨out, .err, .unexpectedShorthand, i + 1⟩
    else if classify c = .digit then
      if ds.length = 4 then decodePayload rest (out ++ bytesOf (foldList (ds ++ [val c]))) [] (i + 1)
      else decodePayload rest out (ds ++ [val c]) (i + 1)
    else ⟨out, .err, .malformedDigit, i + 1⟩ := by
  rw [decodePayload, if_neg (mt classify_eq_tilde.mpr h)]
  simp only [classify_eq_ws, classify_eq_z, classify_eq_digit]

theorem decodePayload_ws (h : classify c = .ws) :
    decodePayload (c :: rest) out ds i = decodePayload rest out ds (i + 1) := by
  simp [decodePayload_cons, h]

theorem decodePayload_z (h : classify c = .z) :
    decodePayload (c :: rest) out [] i = decodePayload rest (out ++ [0, 0, 0, 0]) [] (i + 1) := by
  simp [decodePayload_cons, h]

theorem decodePayload_z_inside (h : classify c = .z) (hds : ds ≠ []) :
    decodePayload (c :: rest) out ds i = ⟨out, .err, .unexpectedShorthand, i + 1⟩ := by
  simp [decodePayload_cons, h, hds]

theorem decodePayload_digit (h : classify c = .digit) (hds : ds.length ≠ 4) :
    decodePayload (c :: rest) out ds i = decodePayload rest out (ds ++ [val c]) (i + 1) := by
  simp [decodePayload_cons, h, hds]

theorem decodePayload_fifth_digit (h : classify c = .digit) (hds : ds.length = 4) :
    decodePayload (c :: rest) out ds i = decodePayload rest (out ++ bytesOf (foldList (ds ++ [val c]))) [] (i + 1) := by
  simp [decodePayload_cons, h, hds]

theorem decodePayload_other (h : classify c = .other) :
    decodePayload (c :: rest) out ds i = ⟨out, .err, .malformedDigit, i + 1⟩ := by
  simp [decodePayload_cons, h]

end

/-! What is left to do after an operation (41_decoder R177) -/

section
variable {d : Dec} (rest : List Byte)

theorem Dec.resume_of_seek (h : d.state = .seek) : d.resume rest = decodeNoise rest d.src.pos := by
  simp only [Dec.resume, h]

theorem Dec.resume_of_lt (h : d.state = .lt) : d.resume rest =
    if rest.head? = some 126 then decodePayload rest.tail [] [] (d.src.pos + 1) else decodeNoise rest d.src.pos := by
  simp only [Dec.resume, h]

theorem Dec.resume_of_pay (h : d.state = .pay) :
    d.resume rest = decodePayload rest d.sink.bytes d.held d.src.pos := by
  simp only [Dec.resume, h]

theorem Dec.resume_of_tilde (h : d.state = .tilde) : d.resume rest =
    if rest.head? = some 62 then ⟨d.sink.bytes ++ flushBytes d.held, .done, .none, d.src.pos + 1⟩
    else ⟨d.sink.bytes, .err, .malformedDigit, d.src.pos⟩ := by
  simp only [Dec.resume, h]

theorem Dec.resume_of_done (h : d.state = .done) : d.resume rest = ⟨d.sink.bytes, .done, .none, d.src.pos⟩ := by
  simp only [Dec.resume, h]

theorem Dec.resume_of_err (h : d.state = .err) : d.resume rest = ⟨d.sink.bytes, .err, d.err, d.src.pos⟩ := by
  simp only [Dec.resume, h]

end

/-- D.DIGIT buffers a digit, or completes a group, where the loop does. -/
theorem effDDigit_resume {c : Byte} {d : Dec} (hs : d.state = .pay) (hc : classify c = .digit) (rest : List Byte) :
    (effDDigit c d).resume rest = d.resume (c :: rest) := by
  rw [Dec.resume_of_pay _ hs, Dec.resume_of_pay rest ((effDDigit_state c d).trans hs), effDDigit_src]
  obtain hk | hk := Nat.lt_or_eq_of_le (Nat.le_of_lt_succ d.k.isLt)
  · rw [decodePayload_digit hc (by simpa using hk.ne), Dec.held_effDDigit hk, (effDDigit_of_lt hk).2]
    rfl
  · have hk4 : d.k = 4 := Fin.ext hk
    rw [decodePayload_fifth_digit hc (by simpa using hk), effDDigit_bytes_of_fifth hk4,
      Dec.held_eq_nil_iff.mpr (effDDigit_of_fifth hk4).1]
    rfl

/-- An operation that pops does what `DecodeAll` does with the byte it pops. -/
theorem decEffect_resume_of_pops {s : State} {i : Instr} (hi : i.agent = .dec) (henabled : enabled i s = true)
    (hinv : s.dec.Inv) (hp : i.pops = true) {b : Byte} (hb : i.token = .byte b) (rest : List Byte) :
    (decEffect i s.dec).resume rest = s.dec.resume (b :: rest) := by
  cases i <;> cases hi <;> cases hp <;> cases hb
  case dSkip =>
    obtain ⟨hs, -, hc⟩ := of_decide_eq_true henabled
    rw [Dec.resume_of_seek _ hs, decodeNoise, if_neg (fun h => hc h.1)]
    exact Dec.resume_of_seek rest hs
  case dLt =>
    obtain ⟨hs, -⟩ := of_decide_eq_true henabled
    rw [Dec.resume_of_seek _ hs, Dec.resume_of_lt rest rfl, decodeNoise]
    simp [decEffect, effDLt]
  case dHdr =>
    obtain ⟨hs, -⟩ := of_decide_eq_true henabled
    obtain ⟨-, -, hempty⟩ := hinv.seeking (.inr hs)
    have hheld : (effDHdr s.dec).held = [] := Dec.held_eq_nil_iff.mpr rfl
    rw [Dec.resume_of_lt _ hs, decEffect, Dec.resume_of_pay rest rfl, hheld]
    simp [effDHdr, hempty]
  case dTilde =>
    obtain ⟨hs, -⟩ := of_decide_eq_true henabled
    rw [Dec.resume_of_pay _ hs, Dec.resume_of_tilde rest rfl, decodePayload, if_pos rfl]
    rfl
  case dWs =>
    obtain ⟨hs, -, hc⟩ := of_decide_eq_true henabled
    rw [Dec.resume_of_pay _ hs, decodePayload_ws (classify_eq_ws.mpr hc)]
    exact Dec.resume_of_pay rest hs
  case dZ =>
    obtain ⟨hs, -, hk⟩ := of_decide_eq_true henabled
    have hheld : s.dec.held = [] := Dec.held_eq_nil_iff.mpr hk
    rw [Dec.resume_of_pay _ hs, hheld, decodePayload_z rfl, ← hheld]
    exact Dec.resume_of_pay rest hs
  case dZerr =>
    obtain ⟨hs, -, hk⟩ := of_decide_eq_true henabled
    rw [Dec.resume_of_pay _ hs, decodePayload_z_inside rfl (mt Dec.held_eq_nil_iff.mp hk)]
    rfl
  case dDigit =>
    obtain ⟨hs, -, hc⟩ := of_decide_eq_true henabled
    exact effDDigit_resume hs (classify_eq_digit.mpr hc) rest
  case dBad =>
    obtain ⟨hs, -, hc⟩ := of_decide_eq_true henabled
    rw [Dec.resume_of_pay _ hs, decodePayload_other (classify_eq_other.mpr hc)]
    rfl
  case dTrailer =>
    obtain ⟨hs, -⟩ := of_decide_eq_true henabled
    rw [Dec.resume_of_tilde _ hs, List.head?_cons, if_pos rfl, decEffect, Dec.resume_of_done rest rfl]
    simp [effDTrailer, Dec.flush_bytes, Dec.held]

/-- An operation that pops nothing does what `DecodeAll` does on seeing the next byte, or that there is none. -/
theorem decEffect_resume_of_not_pops {s : State} {i : Instr} (hi : i.agent = .dec) (henabled : enabled i s = true)
    (hinv : s.dec.Inv) (hp : i.pops = false) {rest : List Byte} (hhead : rest.head? = i.token.byte?) :
    (decEffect i s.dec).resume rest = s.dec.resume rest := by
  cases i <;> cases hi <;> cases hp
  case dEofs =>
    obtain ⟨hs, -⟩ := of_decide_eq_true henabled
    obtain ⟨-, -, hempty⟩ := hinv.seeking (.inl hs)
    obtain rfl := List.head?_eq_none_iff.mp hhead
    rw [Dec.resume_of_seek _ hs, decEffect, Dec.resume_of_done _ rfl, decodeNoise, ← hempty]
    rfl
  case dLtmiss t =>
    obtain ⟨hs, -, hne⟩ := of_decide_eq_true henabled
    have hmiss : rest.head? ≠ some 126 := hhead.trans_ne (mt Token.byte?_eq_some_iff.mp hne)
    rw [Dec.resume_of_lt _ hs, if_neg hmiss]
    rfl
  case dEofp =>
    obtain ⟨hs, -⟩ := of_decide_eq_true henabled
    obtain rfl := List.head?_eq_none_iff.mp hhead
    rw [Dec.resume_of_pay _ hs, decEffect, Dec.resume_of_done _ rfl, decodePayload]
    simp [effDEofp, Dec.flush_bytes]
  case dTildebad t =>
    obtain ⟨hs, -, hne⟩ := of_decide_eq_true henabled
    have hmiss : rest.head? ≠ some 62 := hhead.trans_ne (mt Token.byte?_eq_some_iff.mp hne)
    rw [Dec.resume_of_tilde _ hs, if_neg hmiss]
    rfl

theorem token_of_pops {i : Instr} (hp : i.pops = true) : ∃ b, i.token = .byte b := by
  cases i <;> cases hp <;> exact ⟨_, rfl⟩

/-- An operation takes one turn of `DecodeAll`, whatever follows the head token it stands for. -/
theorem decEffect_resume {s : State} {i : Instr} (hi : i.agent = .dec) (henabled : enabled i s = true)
    (hinv : s.dec.Inv) {rest : List Byte} (hhead : rest.head? = i.token.byte?) :
    (decEffect i s.dec).resume (if i.pops then rest.tail else rest) = s.dec.resume rest := by
  split
  next hp =>
    obtain ⟨b, hb⟩ := token_of_pops hp
    have hcons : b :: rest.tail = rest := List.cons_head?_tail (hhead.trans (Token.byte?_eq_some_iff.mpr hb))
    rw [decEffect_resume_of_pops hi henabled hinv hp hb, hcons]
  next hp => exact decEffect_resume_of_not_pops hi henabled hinv (eq_false_of_ne_true hp) hhead

/-! DEC on track -/

/-- What is left of a source, and what the host still presents behind it, begins with the head token. -/
theorem Source.head?_left {src : Source} {t : Token} (h : src.peek = some t) {more : List Byte}
    (hmore : src.closed = true → more = []) : (src.bytes.drop src.pos ++ more).head? = t.byte? := by
  cases t with
  | byte b =>
    rw [Source.peek_eq_byte] at h
    rw [List.head?_append, List.head?_drop, h]
    rfl
  | eos =>
    obtain ⟨hused, hclosed⟩ := (Source.peek_eq_eos _).mp h
    rw [List.drop_eq_nil_of_le hused, hmore hclosed]
    rfl

/-- A pop takes the first byte of what is left. -/
theorem Source.left_pop {src : Source} (h : src.pos < src.bytes.length) (more : List Byte) :
    src.pop.bytes.drop src.pop.pos ++ more = (src.bytes.drop src.pos ++ more).tail := by
  have hne : src.bytes.drop src.pos ≠ [] := by simpa using h
  rw [List.tail_append_of_ne_nil hne, List.tail_drop]
  rfl

/-- An operation takes its head token off what is left, if it pops. -/
theorem decEffect_left {s : State} {i : Instr} (hi : i.agent = .dec) (henabled : enabled i s = true) (more : List Byte) :
    (decEffect i s.dec).src.bytes.drop (decEffect i s.dec).src.pos ++ more
      = if i.pops then (s.dec.src.bytes.drop s.dec.src.pos ++ more).tail
        else s.dec.src.bytes.drop s.dec.src.pos ++ more := by
  rw [decEffect_src hi]
  split
  next hp =>
    have hlt := pos_lt_of_enabled_pops henabled hp
    rw [hi] at hlt
    exact Source.left_pop hlt more
  next => rfl

theorem decEffect_tracks {s : State} {i : Instr} (hi : i.agent = .dec) (henabled : enabled i s = true) (hinv : s.dec.Inv)
    (h : s.dec.Tracks) : (decEffect i s.dec).Tracks := by
  intro more hmore
  have hkept : (decEffect i s.dec).src.bytes = s.dec.src.bytes ∧ (decEffect i s.dec).src.closed = s.dec.src.closed := by
    rw [decEffect_src hi]
    split <;> exact ⟨rfl, rfl⟩
  obtain ⟨hbytes, hclosed⟩ := hkept
  rw [hclosed] at hmore
  have hpeek := peek_of_enabled henabled (by rintro rfl; cases hi)
  rw [hi, State.source_dec] at hpeek
  have hhead := Source.head?_left hpeek hmore
  rw [decEffect_left hi henabled, decEffect_resume hi henabled hinv hhead, hbytes]
  exact h more hmore

theorem Dec.tracks_of_start {d : Dec} (hstate : d.state = .seek) (hpos : d.src.pos = 0) : d.Tracks := by
  intro more _
  rw [Dec.resume_of_seek _ hstate, hpos]
  rfl

/-- What the host presents it was free to present; `END` comes and goes only while DEC has all before it (20_memory R62). -/
theorem Dec.Tracks.streams {d : Dec} {src : Source} {sink : Sink} {rst : Bool} (h : d.Tracks) (hinv : d.Inv)
    (hsrc : d.src.Fed src) (hsink : d.sink.Presented sink)
    (hclosed : d.rst = false → d.src.closed = true → src.closed = true) :
    ({ d with src := src, sink := sink, rst := rst } : Dec).Tracks := by
  cases hr : d.rst with
  | true =>
    have hreset := hinv.reset hr
    exact Dec.tracks_of_start hreset.state (hsrc.pos.trans hreset.pos)
  | false =>
    intro more hmore
    obtain ⟨fed, hfed, hnone⟩ := hsrc.bytes
    have htrack := h (fed ++ more) fun hc => by rw [hnone hc, hmore (hclosed hr hc), List.append_nil]
    have hleft : src.bytes.drop src.pos ++ more = d.src.bytes.drop d.src.pos ++ (fed ++ more) := by
      rw [hfed, hsrc.pos, List.drop_append_of_le_length hinv.pos_le, List.append_assoc]
    have hresume (rest : List Byte) :
        ({ d with src := src, sink := sink, rst := rst } : Dec).resume rest = d.resume rest := by
      simp only [Dec.resume, Dec.held, hsrc.pos, hsink.bytes]
    rw [hresume, hleft, ← htrack, ← List.append_assoc, ← hfed]

/-- Each operation takes one turn of `DecodeAll`, reset starts again, and the host and the port leave DEC where it stands. -/
theorem DecChange.tracks {s : State} {d : Dec} (hchange : DecChange s d) (hinv : s.dec.Inv) (h : s.dec.Tracks) :
    d.Tracks := by
  cases hchange with
  | op i hi henabled => exact decEffect_tracks hi henabled hinv h
  | reset => exact Dec.tracks_of_start rfl rfl
  | streams src sink rst hsrc hsink _ hclosed => exact h.streams hinv hsrc hsink hclosed

/-- Settles O54, from what a step can do to DEC. -/
theorem stepKeepsTheDecoderOnTrack : Obligations.StepKeepsTheDecoderOnTrack :=
  fun _ _ hinv h hstep => (step_dec hstep).tracks hinv.2 h

end Machine
end Sys2Proof
end


section
/-! PROOFS. The round trip (41_decoder R178): `DecodeAll` of `EncodeAll` of a source is the source. -/

namespace Sys2Proof.Machine

/-! Reading payload characters under the line breaks of the encoder (40_encoder R131; 41_decoder R177) -/

/-- Wherever the line breaks fall in the characters `p`, `DecodeAll` reads all of them, and goes from the bytes `out` and the
digits `ds` to `out'` and `ds'`. -/
def Reads (p out : List Byte) (ds : List Digit) (out' : List Byte) (ds' : List Digit) : Prop :=
  ∀ (col : Nat) (rest : List Byte) (i : Nat),
    decodePayload (wrapFrom col p ++ rest) out ds i = decodePayload rest out' ds' (i + (wrapFrom col p).length)

theorem Reads.nil (out : List Byte) (ds : List Digit) : Reads [] out ds out ds := fun _ _ _ => rfl

theorem Reads.append {p q out out' out'' : List Byte} {ds ds' ds'' : List Digit} (hp : Reads p out ds out' ds')
    (hq : Reads q out' ds' out'' ds'') : Reads (p ++ q) out ds out'' ds'' := by
  intro col rest i
  rw [wrapFrom_append, List.append_assoc, hp, hq, List.length_append, Nat.add_assoc]

/-- A line feed before a character is whitespace to DEC (41_decoder R168). -/
theorem Reads.singleton {c : Byte} {out out' : List Byte} {ds ds' : List Digit}
    (h : ∀ rest i, decodePayload (c :: rest) out ds i = decodePayload rest out' ds' (i + 1)) : Reads [c] out ds out' ds' := by
  intro col rest i
  by_cases hfull : 75 ≤ col
  · rw [wrapFrom, if_pos hfull]
    exact (decodePayload_ws rfl).trans (h _ _)
  · rw [wrapFrom, if_neg hfull]
    exact h _ _

theorem classify_chr (g : Digit) : classify (chr g) = .digit := by
  rw [classify_eq_digit, chr_toNat]
  omega

/-- Digit characters short of a group join the digits held. -/
theorem reads_digits (out : List Byte) {gs ds : List Digit} (h : ds.length + gs.length ≤ 4) :
    Reads (gs.map chr) out ds out (ds ++ gs) := by
  induction gs generalizing ds with
  | nil => simpa using Reads.nil out ds
  | cons g gs ih =>
    rw [List.length_cons] at h
    have hfirst : Reads [chr g] out ds out (ds ++ [g]) := .singleton fun rest i => by
      rw [decodePayload_digit (classify_chr g) (by omega), val_chr]
    have hrest := ih (ds := ds ++ [g]) (by rw [List.length_append, List.length_singleton]; omega)
    rw [List.append_assoc] at hrest
    exact hfirst.append hrest

/-- The five characters of a word give its four bytes: `Fold(Digits(w)) = w` (00_scope R15). -/
theorem reads_chars (w : Word) (out : List Byte) : Reads (chars w) out [] (out ++ unpack w) [] := by
  have hfour := reads_digits out (gs := [(digits w).g0, (digits w).g1, (digits w).g2, (digits w).g3]) (ds := []) le_rfl
  refine hfour.append (.singleton fun rest i => ?_)
  rw [decodePayload_fifth_digit (classify_chr _) rfl, val_chr]
  have hword : foldList (digits w).toList = w.toNat := by rw [foldList_toList, fold_digits]
  rw [unpack_eq_bytesOf, ← hword]
  rfl

/-- The characters of a full group give its four bytes, in the shorthand as well (40_encoder R134, R135). -/
theorem reads_group (b0 b1 b2 b3 : Byte) (out : List Byte) :
    Reads (if packSum b0 b1 b2 b3 = 0 then [122] else digitChars (packSum b0 b1 b2 b3)) out []
      (out ++ [b0, b1, b2, b3]) [] := by
  split
  next hzero =>
    rw [← bytesOf_packSum, hzero]
    exact .singleton fun rest i => decodePayload_z rfl
  next =>
    rw [← unpack_pack b0, ← pack_toNat, ← chars_eq_digitChars]
    exact reads_chars _ out

/-- The characters of a partial group leave digits that flush to its bytes (30_encoding R98). -/
theorem reads_partial (g : Group) {n : Fin 4} (hn : 0 < n.val) (out : List Byte) :
    ∃ full ds, Reads ((digitChars (partialSum g n.val)).take (n.val + 1)) out [] (out ++ full) ds
      ∧ full ++ flushBytes ds = [g.b0, g.b1, g.b2, g.b3].take n.val := by
  refine ⟨[], (digits (g.word n)).toList.take (n.val + 1), ?_, ?_⟩
  · rw [← Group.word_toNat, ← chars_eq_digitChars, chars, ← List.map_take, List.append_nil]
    refine reads_digits out ?_
    rw [List.length_take, List.length_nil]
    omega
  · refine (flushBytes_take_toList (digits (g.word n)) n.succ).trans ?_
    rw [Fin.val_succ, if_pos (Nat.succ_pos _)]
    exact partialGroupSurvivesTruncation g n n.succ hn rfl

/-- Reading a whole payload leaves the source written, up to what the digits held flush to. -/
theorem reads_payload (bytes out : List Byte) :
    ∃ full ds, Reads (payload bytes) out [] (out ++ full) ds ∧ full ++ flushBytes ds = bytes := by
  induction bytes using payload.induct generalizing out with
  | case1 b0 b1 b2 b3 rest ih =>
    obtain ⟨full, ds, hreads, hflush⟩ := ih (out ++ [b0, b1, b2, b3])
    refine ⟨[b0, b1, b2, b3] ++ full, ds, ?_, by rw [List.append_assoc, hflush]; rfl⟩
    rw [← List.append_assoc]
    exact (reads_group b0 b1 b2 b3 out).append hreads
  | case2 b0 b1 b2 => exact reads_partial ⟨b0, b1, b2, 0⟩ (n := 3) (by decide) out
  | case3 b0 b1 => exact reads_partial ⟨b0, b1, 0, 0⟩ (n := 2) (by decide) out
  | case4 b0 => exact reads_partial ⟨b0, 0, 0, 0⟩ (n := 1) (by decide) out
  | case5 => exact ⟨[], [], by simpa [payload] using Reads.nil out [], rfl⟩

/-! The whole text -/

/-- 41_decoder R178, as one function after the other. -/
theorem decodeAll_encodeAll (bytes : List Byte) :
    decodeAll (encodeAll bytes) = ⟨bytes, .done, .none, (encodeAll bytes).length⟩ := by
  obtain ⟨full, ds, hreads, hflush⟩ := reads_payload bytes []
  have htext : encodeAll bytes = 60 :: 126 :: (wrapFrom 2 (payload bytes) ++ [126, 62]) := by
    rw [encodeAll, layout_eq_wrapFrom]
    rfl
  have htrailer (i : Nat) : decodePayload [126, 62] full ds i = ⟨full ++ flushBytes ds, .done, .none, i + 2⟩ := rfl
  calc decodeAll (encodeAll bytes)
      = decodePayload (wrapFrom 2 (payload bytes) ++ [126, 62]) [] [] 2 := by rw [htext]; rfl
    _ = ⟨bytes, .done, .none, 2 + (wrapFrom 2 (payload bytes)).length + 2⟩ := by
      rw [hreads, List.nil_append, htrailer, hflush]
    _ = ⟨bytes, .done, .none, (encodeAll bytes).length⟩ := by
      rw [htext]
      simp
      omega

/-- Settles O57: ENC's sink is `EncodeAll` of its source, and in a terminal state DEC stands at `DecodeAll` of its own. -/
theorem decodingWhatWasEncodedGivesTheSource : Obligations.DecodingWhatWasEncodedGivesTheSource := by
  intro s henc hdec hdone hsrc hterm
  obtain ⟨hsink, -, -⟩ := henc.done hdone
  have hresult := hdec [] fun _ => rfl
  rw [List.append_nil, hsrc, hsink, decodeAll_encodeAll, ← hsink, ← hsrc] at hresult
  obtain hstate | hstate := hterm
  · rw [Dec.resume_of_done _ hstate] at hresult
    injection hresult with hout _ _ hpopped
    exact ⟨hstate, hout.symm, hpopped.symm⟩
  · rw [Dec.resume_of_err _ hstate] at hresult
    injection hresult with _ hclash
    cases hclash

end Sys2Proof.Machine
end


section
/-! PROOFS. Which operation is enabled, how many are still to come, and what a step does that runs none: a turn that waits, a
step with no move listed, a reset line that is driven (70_reset R230, R234, R235). -/

namespace Sys2Proof.Machine

/-! One operation, or none (70_reset R234) -/

/-- The operation selected is the only one of its agent that is enabled. -/
theorem existsUnique_enabled_of_select {s : State} {a : Agent} {i : Instr} (h : s.select a = .op i) :
    ∃! j : Instr, j.agent = a ∧ enabled j s = true := by
  refine ⟨i, ⟨agent_of_select h, enabled_of_select h⟩, ?_⟩
  rintro j ⟨rfl, hj⟩
  exact Decoded.op.inj ((select_of_enabled hj).symm.trans h)

/-- Settles O12: the decoder is a function, and selects an operation wherever there is a token to decode. -/
theorem exactlyOneOperationEnabled : Obligations.ExactlyOneOperationEnabled := by
  constructor
  · rintro s (hp | ⟨hp, htok⟩)
    · exact existsUnique_enabled_of_select (select_enc_eq_op.mpr (.inl ⟨hp, rfl⟩))
    · obtain ⟨t, ht⟩ := Option.isSome_iff_exists.mp htok
      exact existsUnique_enabled_of_select (select_of_body hp ht rfl)
  · intro s hdone herr htok
    obtain ⟨t, ht⟩ := Option.isSome_iff_exists.mp htok
    cases hp : s.dec.state with
    | seek => exact existsUnique_enabled_of_select (select_of_seek hp ht rfl)
    | lt => exact existsUnique_enabled_of_select (select_of_lt hp ht rfl)
    | pay => exact existsUnique_enabled_of_select (select_of_pay hp ht rfl)
    | tilde => exact existsUnique_enabled_of_select (select_of_tilde hp ht rfl)
    | done => exact absurd hp hdone
    | err => exact absurd hp herr

/-! A step answers a next state, whatever is listed -/

theorem runMove_completes (m : Move) (s : State) : ∃ t, runMove m s = .next t := by
  cases hm : m.agent with
  | enc => exact ⟨_, runMove_enc hm s⟩
  | dec => exact ⟨_, runMove_dec hm s⟩

/-- Settles O40: a step is a move, which completes, or it is none. -/
theorem everyStepCompletes : Obligations.EveryStepCompletes := by
  intro s
  cases hs : s.moves with
  | cons m ms =>
    rw [step_cons s m ms hs]
    exact runMove_completes m _
  | nil =>
    rw [step_nil s hs]
    cases defaultMove s with
    | some m => exact runMove_completes m s
    | none => exact ⟨s, rfl⟩

/-- Settles O33: out of reset, a turn that finds nothing selected leaves the state as it is. -/
theorem stepWaitsWithNothingEnabled : Obligations.StepWaitsWithNothingEnabled := by
  intro s a ms why hs hrst hidle
  simp [step_cons s _ ms hs, runMove, takeTurn, hrst, hidle]

/-! A step with no move listed (log entry 1) -/

theorem canPresent_eq_true {s : State} {a : Agent} :
    canPresent s a = true ↔ s.inReset a = false ∧ s.backlog a = true := by
  simp [canPresent]

theorem canRun_eq_true {s : State} {a : Agent} :
    canRun s a = true ↔ s.inReset a = false ∧ ∃ i, s.select a = .op i ∧ (i.pops && s.backlog a) = false := by
  unfold canRun
  cases s.select a with
  | idle why => simp
  | op i => simp [imp_iff_not_or]

/-- A port that can present goes before an agent that can run, and there is no move only where neither exists. -/
theorem defaultMove_cases (s : State) :
    (∃ a, canPresent s a = true ∧ defaultMove s = some (.port a))
    ∨ (∃ a, canRun s a = true ∧ defaultMove s = some (.turn a))
    ∨ (defaultMove s = none ∧ ∀ a, ¬ canPresent s a = true ∧ ¬ canRun s a = true) := by
  unfold defaultMove
  split_ifs with hpe hpd hre hrd
  · exact .inl ⟨.enc, hpe, rfl⟩
  · exact .inl ⟨.dec, hpd, rfl⟩
  · exact .inr (.inl ⟨.enc, hre, rfl⟩)
  · exact .inr (.inl ⟨.dec, hrd, rfl⟩)
  · refine .inr (.inr ⟨rfl, fun a => ?_⟩)
    cases a with
    | enc => exact ⟨hpe, hre⟩
    | dec => exact ⟨hpd, hrd⟩

/-- An agent out of reset whose port is drained runs whatever it has selected (20_memory R66). -/
theorem canRun_of_select {s : State} {a : Agent} {i : Instr} (hrst : s.inReset a = false) (hb : s.backlog a = false)
    (hs : s.select a = .op i) : canRun s a = true :=
  canRun_eq_true.mpr ⟨hrst, i, hs, by simp [hb]⟩

/-- Settles O34: the move taken can present or run, and with neither possible no port has a byte, so that no agent that has
selected an operation is held up either. -/
theorem stepWithoutMovesMakesProgress : Obligations.StepWithoutMovesMakesProgress := by
  intro s hs
  rw [step_nil s hs]
  obtain ⟨a, hcan, hmove⟩ | ⟨a, hcan, hmove⟩ | ⟨hmove, hnone⟩ := defaultMove_cases s <;> rw [hmove]
  · obtain ⟨hrst, hb⟩ := canPresent_eq_true.mp hcan
    exact .inl ⟨a, hrst, hb, by simp [runMove, takePort, hrst]⟩
  · obtain ⟨hrst, i, hsel, hgo⟩ := canRun_eq_true.mp hcan
    exact .inr (.inl ⟨a, i, hrst, hsel, by simp only [runMove, takeTurn, hrst, hsel, hgo]; rfl⟩)
  · refine .inr (.inr ⟨rfl, fun a hrst => ?_⟩)
    have hb : s.backlog a = false := eq_false_of_ne_true fun hb => (hnone a).1 (canPresent_eq_true.mpr ⟨hrst, hb⟩)
    exact ⟨hb, fun i hsel => (hnone a).2 (canRun_of_select hrst hb hsel)⟩

/-! The reset lines (70_reset R230; log entries 2, 5) -/

/-- While the line is high, a turn of ENC or of its port is a reset. -/
theorem Enc.move_of_rst {e : Enc} {m : Move} (hm : m = .turn .enc ∨ m = .port .enc) (h : e.rst = true) :
    e.move m = e.takeReset := by
  obtain rfl | rfl := hm <;> exact if_pos h

/-- While the line is high, a turn of DEC or of its port is a reset. -/
theorem Dec.move_of_rst {d : Dec} {m : Move} (hm : m = .turn .dec ∨ m = .port .dec) (h : d.rst = true) :
    d.move m = d.takeReset := by
  obtain rfl | rfl := hm <;> exact if_pos h

theorem Enc.move_reopen (e : Enc) (a : Agent) :
    e.move (.reopen a) = { e with src := { e.src with closed := if e.rst then false else e.src.closed } } := by
  simp only [Enc.move]
  split_ifs <;> rfl

theorem Dec.move_reopen (d : Dec) (a : Agent) :
    d.move (.reopen a) = { d with src := { d.src with closed := if d.rst then false else d.src.closed } } := by
  simp only [Dec.move]
  split_ifs <;> rfl

/-- Settles O37: each of these moves writes its own agent alone, by `takeReset`, in its reset line, or in `END`. -/
theorem resetLineForcesResetValues : Obligations.ResetLineForcesResetValues := by
  refine ⟨fun s ms hs hrst => ?_, fun s ms hs hrst => ?_, fun s ms hs => ?_, fun s ms hs => ?_,
    fun s ms hs => step_cons_enc hs rfl, fun s ms hs => step_cons_dec hs rfl, fun s ms hs => ?_, fun s ms hs => ?_⟩
  · obtain ⟨m, hm, hs⟩ : ∃ m, (m = .turn .enc ∨ m = .port .enc) ∧ s.moves = m :: ms := by simpa using hs
    have hagent : m.agent = .enc := by obtain rfl | rfl := hm <;> rfl
    refine ⟨_, step_cons_enc hs hagent, ?_⟩
    rw [Enc.move_of_rst hm hrst]
    exact ⟨s.enc.takeReset_atReset, rfl, hrst⟩
  · obtain ⟨m, hm, hs⟩ : ∃ m, (m = .turn .dec ∨ m = .port .dec) ∧ s.moves = m :: ms := by simpa using hs
    have hagent : m.agent = .dec := by obtain rfl | rfl := hm <;> rfl
    refine ⟨_, step_cons_dec hs hagent, ?_⟩
    rw [Dec.move_of_rst hm hrst]
    exact ⟨s.dec.takeReset_atReset, rfl, hrst⟩
  · exact ⟨_, step_cons_enc hs rfl, s.enc.takeReset_atReset.setRst true, rfl, rfl, rfl⟩
  · exact ⟨_, step_cons_dec hs rfl, s.dec.takeReset_atReset.setRst true, rfl, rfl, rfl⟩
  · rw [step_cons_enc hs rfl, Enc.move_reopen]
  · rw [step_cons_dec hs rfl, Dec.move_reopen]

/-! The operations still to come (70_reset R235) -/

theorem Enc.opsLeft_of_hdr {e : Enc} (h : e.phase = .hdr) : e.opsLeft = e.src.bytes.length - e.src.pos + 2 := by
  rw [Enc.opsLeft, h]

theorem Enc.opsLeft_of_body {e : Enc} (h : e.phase = .body) : e.opsLeft = e.src.bytes.length - e.src.pos + 1 := by
  rw [Enc.opsLeft, h]

theorem Enc.opsLeft_of_done {e : Enc} (h : e.phase = .done) : e.opsLeft = 0 := by
  rw [Enc.opsLeft, h]

theorem encEffect_phase_of_pops {i : Instr} (hi : i.agent = .enc) (hpops : i.pops = true) (e : Enc) :
    (encEffect i e).phase = e.phase := by
  cases i with
  | eBuf b => rfl
  | eGrp b => simp [encEffect, effEGrp]
  | eGrpz => simp [encEffect, effEGrpz]
  | eHdr | eEndp | eEnd0 => cases hpops
  | _ => cases hi

/-- An operation of ENC that pops nothing writes the header, or is taken on `END` and ends the run (10_state R42). -/
theorem encEffect_of_not_pops {s : State} {i : Instr} (hi : i.agent = .enc) (hne : i ≠ .eHdr) (hpops : i.pops = false)
    (henabled : enabled i s = true) : (encEffect i s.enc).phase = .done ∧ s.enc.src.peek = some .eos := by
  have hpeek := peek_of_enabled henabled hne
  cases i with
  | eHdr => exact absurd rfl hne
  | eEndp | eEnd0 => exact ⟨rfl, hpeek⟩
  | eBuf b | eGrp b | eGrpz => cases hpops
  | _ => cases hi

/-- ENC pops a byte, or takes the one operation on `END`, or the one that writes the header. -/
theorem opsLeft_encEffect {s : State} {i : Instr} (hi : i.agent = .enc) (henabled : enabled i s = true) :
    (encEffect i s.enc).opsLeft + 1 = s.enc.opsLeft := by
  obtain rfl | hne := eq_or_ne i .eHdr
  · rw [Enc.opsLeft_of_body rfl, Enc.opsLeft_of_hdr (of_decide_eq_true henabled)]
    rfl
  · have hp := phase_body_of_enabled hi hne henabled
    cases hpops : i.pops with
    | true =>
      have hlt := pos_lt_of_enabled_pops henabled hpops
      rw [hi, State.source_enc] at hlt
      have hbody := (encEffect_phase_of_pops hi hpops s.enc).trans hp
      rw [Enc.opsLeft_of_body hbody, Enc.opsLeft_of_body hp, encEffect_src hi, if_pos hpops, Source.pop_bytes,
        Source.pop_pos]
      omega
    | false =>
      obtain ⟨hdone, heos⟩ := encEffect_of_not_pops hi hne hpops henabled
      have hused := ((Source.peek_eq_eos _).mp heos).1
      rw [Enc.opsLeft_of_done hdone, Enc.opsLeft_of_body hp]
      omega

/-- Outside the terminal states the bound allows two operations for every byte left, and one more at least. -/
theorem Dec.lt_opsBound {d : Dec} (hdone : d.state ≠ .done) (herr : d.state ≠ .err) :
    2 * (d.src.bytes.length - d.src.pos) < d.opsBound := by
  unfold Dec.opsBound
  split
  case h_5 h => exact absurd h hdone
  case h_6 h => exact absurd h herr
  all_goals omega

theorem Dec.opsBound_le (d : Dec) : d.opsBound ≤ 2 * (d.src.bytes.length - d.src.pos) + 2 := by
  unfold Dec.opsBound
  split <;> omega

/-- A pop takes two off the bound, of which a `<` gives one back for the second look at the token behind it
(41_decoder R166); all that pop nothing end the run, but for that second look. -/
theorem opsBound_decEffect_lt {s : State} {i : Instr} (hi : i.agent = .dec) (henabled : enabled i s = true) :
    (decEffect i s.dec).opsBound < s.dec.opsBound := by
  obtain ⟨hdone, herr⟩ := not_terminal_of_enabled hi henabled
  have hbound := Dec.lt_opsBound hdone herr
  cases hpops : i.pops with
  | true =>
    have hlt := pos_lt_of_enabled_pops henabled hpops
    have hle := (decEffect i s.dec).opsBound_le
    rw [hi, State.source_dec] at hlt
    rw [decEffect_src hi, if_pos hpops, Source.pop_bytes, Source.pop_pos] at hle
    omega
  | false =>
    cases i with
    | dEofs | dEofp | dTildebad t => exact Nat.zero_lt_of_lt hbound
    | dLtmiss t =>
      obtain ⟨hlt, -⟩ := of_decide_eq_true henabled
      simp [decEffect, effDLtmiss, Dec.opsBound, hlt]
    | eHdr | eEndp | eEnd0 => cases hi
    | _ => cases hpops

/-- Settles O46, from what an operation does to its agent. That a read position is within its source is not needed: an
operation that pops has a byte there, and behind the end the difference of lengths is 0. -/
theorem operationsCountDown : Obligations.OperationsCountDown := by
  intro i s t h _ _
  obtain ⟨henabled, rfl⟩ := (exec_eq_next i s t).mp h
  exact ⟨fun hi => opsLeft_encEffect hi henabled, fun hi => opsBound_decEffect_lt hi henabled⟩

end Sys2Proof.Machine
end
